-- ==== Sys2Proof/Word.lean ====
section
/-! DEFINITION. The words of the block's interface, with the widths of `00_scope.md` rules R5 and R9,
`30_encoding.md` rules R60 and R66 (the spec's decisions D2, D5, D6 and D16). -/

namespace Sys2Proof

/-- `BYTE_W` = 8 and `FIELD_W` = 8: a Register Buffer byte, a bus byte, a calendar field other than the year (R5). -/
abbrev Byte := BitVec 8

/-- `YEAR_W` = 16: the binary year (R5, R9). -/
abbrev Year := BitVec 16

/-- `EPOCH_W` = 32: seconds counted from 1970-01-01T00:00:00, unsigned (R5, R9, C6). -/
abbrev EpochSeconds := BitVec 32

/-- `MODE_W` = 5: the alarm repeat-mode selector (R5, R160). -/
abbrev Mode := BitVec 5

/-- `cmd[71:64]` (R60). -/
abbrev Opcode := BitVec 8

/-- `cmd[63:0]`, and the `data` field of a response (R60, R66). -/
abbrev Payload := BitVec 64

/-- `CMD_W` = 72: a command word (R5, R60). -/
abbrev CommandWord := BitVec 72

end Sys2Proof
end

