-- ==== Sys2Proof/Config.lean ====
section
/-! DEFINITION. The implementation parameters of `00_scope.md` rule R5: wired values, not state (R11).
Every one is given a value by the spec, so none is a free value. They are abbreviations, so that a number and its
name are the same to every proof. -/

namespace Sys2Proof.Config

/-- `REF_UNIX`: the reference instant 2000-01-01T00:00:00 as EpochSeconds. -/
abbrev refUnix : Nat := 946684800

/-- `SEC_PER_DAY`. -/
abbrev secPerDay : Nat := 86400

/-- `YEAR_BASE`: the base the stored year is an offset from. -/
abbrev yearBase : Nat := 2000

/-- `BLOCK_DAYS`: days in a four-year block. -/
abbrev blockDays : Nat := 1461

/-- `LEAP_MARK`: the 0-based index, in a four-year block, of the first day past 29 February. -/
abbrev leapMark : Nat := 60

/-- `DOW_OFFSET` (R154, C2, decision D15; log 13). -/
abbrev dowOffset : Nat := 4

/-- `CUMDAYS[1..12]`: entry `k` counted from 0 is `CUM(k+1)` (R5, R141). -/
abbrev cumDays : List Nat := [0, 31, 59, 90, 120, 151, 181, 212, 243, 273, 304, 334]

/-- The table term of a month outside 1 to 12 (R141, decision D8; log 8). -/
abbrev cumOutOfRange : Nat := 0

/-- `TIME_BASE` (R5, R41). -/
abbrev timeBase : Byte := 0x00

/-- `TIME_LEN` (R5, R41). -/
abbrev timeLen : BitVec 4 := 7

/-- `A1_BASE` (R5, R41). -/
abbrev alarm1Base : Byte := 0x07

/-- `A1_LEN` (R5, R41). -/
abbrev alarm1Len : BitVec 4 := 4

/-- `A2_BASE` (R5, R41). -/
abbrev alarm2Base : Byte := 0x0B

/-- `A2_LEN` (R5, R41). -/
abbrev alarm2Len : BitVec 4 := 3

/-- `RB_RESET`: the content of every Register Buffer byte after reset (R5, R25, decision D12; log 6). -/
abbrev rbResetByte : Byte := 0x00

end Sys2Proof.Config
end

