-- ==== Sys2Proof/Syntax.lean ====
section
/-! DEFINITION. The commands of the block: value types of the interface (`00_scope.md` R8, R9), the 24
commands (`30_encoding.md` R64), their mnemonics and payload formats (R61), and the assembler line
(R70, R71). Every operand has exactly the width of its field (R63), so no term of `Instr` is ill formed;
what can be ill formed is an assembler line, and what can be out of the caller's contract is an operand's
value: `WellFormed.lean` checks both. -/

namespace Sys2Proof

/-- The seven Register Buffer fields, in the order of R8. -/
inductive RegField where
  | sec | min | hour | dow | dom | mon | year
  deriving DecidableEq, Repr

/-- All fields in ascending chip address (R8). -/
def RegField.all : List RegField := [.sec, .min, .hour, .dow, .dom, .mon, .year]

/-- Seven raw time bytes in ascending chip address 0x00 to 0x06: the content of the Register Buffer (R20,
R21) and the operand of `RBLOAD` (format `R`, R61). -/
structure RawTime where
  sec  : Byte
  min  : Byte
  hour : Byte
  dow  : Byte
  dom  : Byte
  mon  : Byte
  year : Byte
  deriving DecidableEq, Repr

/-- A binary calendar; any bit pattern is one (R9). The fields stand in the tuple order of R9. -/
structure CalendarValue where
  year   : Year
  month  : Byte
  dom    : Byte
  hour   : Byte
  minute : Byte
  second : Byte
  dow    : Byte
  deriving DecidableEq, Repr

/-- The 24 commands of R64, with the operands of their payload formats (R61, R62). -/
inductive Instr where
  | bcd2bin (b : Byte)
  | bin2bcd (v : Byte)
  | getsec
  | getmin
  | gethour
  | getdow
  | getdom
  | getmon
  | getyear
  | setsec (v : Byte)
  | setmin (v : Byte)
  | sethour (v : Byte)
  | setdow (v : Byte)
  | setdom (v : Byte)
  | setmon (v : Byte)
  | setyear (h : Year)
  | rbload (raw : RawTime)
  | rbdump
  | caldec
  | calenc (c : CalendarValue)
  | cal2ep (c : CalendarValue)
  | ep2cal (e : EpochSeconds)
  | alm1pk (mode : Mode)
  | alm2pk (mode : Mode)
  deriving DecidableEq, Repr

/-- The 24 mnemonics of R64. -/
inductive Mnemonic where
  | bcd2bin | bin2bcd
  | getsec | getmin | gethour | getdow | getdom | getmon | getyear
  | setsec | setmin | sethour | setdow | setdom | setmon | setyear
  | rbload | rbdump | caldec | calenc | cal2ep | ep2cal | alm1pk | alm2pk
  deriving DecidableEq, Repr

/-- The payload formats of R61: `N` no operand, `B` byte, `H` halfword, `W` word, `R` raw time bytes,
`C` calendar, `M` alarm mode. -/
inductive PayloadFormat where
  | n | b | h | w | r | c | m
  deriving DecidableEq, Repr

/-- The six named alarm modes of R161; their values are `NamedMode.value`. -/
inductive NamedMode where
  | everySecond | everyMinute | everyHour | everyDay | everyWeek | everyMonth
  deriving DecidableEq, Repr

/-- One assembler line: a mnemonic and its operands as numbers, in the order of R70. -/
structure AsmLine where
  mnemonic : Mnemonic
  operands : List Nat
  deriving DecidableEq, Repr

/-- The mnemonic of a command (R64). -/
def Instr.mnemonic : Instr → Mnemonic
  | .bcd2bin _ => .bcd2bin
  | .bin2bcd _ => .bin2bcd
  | .getsec => .getsec
  | .getmin => .getmin
  | .gethour => .gethour
  | .getdow => .getdow
  | .getdom => .getdom
  | .getmon => .getmon
  | .getyear => .getyear
  | .setsec _ => .setsec
  | .setmin _ => .setmin
  | .sethour _ => .sethour
  | .setdow _ => .setdow
  | .setdom _ => .setdom
  | .setmon _ => .setmon
  | .setyear _ => .setyear
  | .rbload _ => .rbload
  | .rbdump => .rbdump
  | .caldec => .caldec
  | .calenc _ => .calenc
  | .cal2ep _ => .cal2ep
  | .ep2cal _ => .ep2cal
  | .alm1pk _ => .alm1pk
  | .alm2pk _ => .alm2pk

/-- The payload format of each command (R61, R64). -/
def Mnemonic.format : Mnemonic → PayloadFormat
  | .bcd2bin | .bin2bcd => .b
  | .getsec | .getmin | .gethour | .getdow | .getdom | .getmon | .getyear => .n
  | .setsec | .setmin | .sethour | .setdow | .setdom | .setmon => .b
  | .setyear => .h
  | .rbload => .r
  | .rbdump | .caldec => .n
  | .calenc | .cal2ep => .c
  | .ep2cal => .w
  | .alm1pk | .alm2pk => .m

/-- The widths of a format's operands, in the order of R70 (R61, R62). -/
def PayloadFormat.operandWidths : PayloadFormat → List Nat
  | .n => []
  | .b => [8]
  | .h => [16]
  | .w => [32]
  | .r => [8, 8, 8, 8, 8, 8, 8]
  | .c => [16, 8, 8, 8, 8, 8, 8]
  | .m => [5]

end Sys2Proof
end

