-- ==== Sys2Proof/WellFormed.lean ====
section
/-! DEFINITION. The checks. `AsmLine.wellFormed`: what an assembler line needs to spell a command (R70, R71).
`Instr.inContract`: the caller's contract each rule states for its operands. The block executes commands out
of contract too (R66, R181); a claim about calendar meaning takes the contract as a premise (R22, U1 to U4). -/

namespace Sys2Proof

/-- The six-operand pseudo forms of `CALENC` and `CAL2EP` stand for a day of week of 0 (R71). -/
def AsmLine.fullOperands (l : AsmLine) : List Nat :=
  if l.mnemonic.format = .c ∧ l.operands.length = 6 then l.operands ++ [0] else l.operands

/-- As many operands as the format has fields (R61, R70). -/
def AsmLine.countOk (l : AsmLine) : Bool :=
  l.fullOperands.length == l.mnemonic.format.operandWidths.length

/-- Every operand fits its field: operands are unsigned and nothing is scaled or narrowed (R63). -/
def AsmLine.widthsOk (l : AsmLine) : Bool :=
  (l.fullOperands.zip l.mnemonic.format.operandWidths).all fun p => p.1 < 2 ^ p.2

/-- The line spells a command. -/
def AsmLine.wellFormed (l : AsmLine) : Bool := l.countOk && l.widthsOk

/-- Both nibbles of the byte are decimal digits (R21, R104 (d)). -/
def isBcdByte (b : Byte) : Bool := b.toNat / 16 ≤ 9 && b.toNat % 16 ≤ 9

/-- A packed-BCD byte whose two digits spell a number from `lo` to `hi`. -/
def isBcdIn (lo hi : Nat) (b : Byte) : Bool :=
  isBcdByte b && lo ≤ b.toNat / 16 * 10 + b.toNat % 16 && b.toNat / 16 * 10 + b.toNat % 16 ≤ hi

/-- Every byte is packed BCD (R21; a premise, never enforced: R22). -/
def RawTime.isBcd (t : RawTime) : Bool :=
  isBcdByte t.sec && isBcdByte t.min && isBcdByte t.hour && isBcdByte t.dow && isBcdByte t.dom &&
    isBcdByte t.mon && isBcdByte t.year

/-- Every byte is packed BCD and no larger than its field's range allows (R21). The lower ends are not asked
for: the reset content and `EP2CAL`'s fallback are all zero (R25, R150), and `EP2CAL` writes a day of week
of 0 (R154). -/
def RawTime.bounded (t : RawTime) : Bool :=
  isBcdIn 0 59 t.sec && isBcdIn 0 59 t.min && isBcdIn 0 23 t.hour && isBcdIn 0 7 t.dow &&
    isBcdIn 0 31 t.dom && isBcdIn 0 12 t.mon && isBcdIn 0 99 t.year

/-- Every byte is in the range R21 gives a valid field. -/
def RawTime.validFields (t : RawTime) : Bool :=
  isBcdIn 0 59 t.sec && isBcdIn 0 59 t.min && isBcdIn 0 23 t.hour && isBcdIn 1 7 t.dow &&
    isBcdIn 1 31 t.dom && isBcdIn 1 12 t.mon && isBcdIn 0 99 t.year

/-- A year the converters and setters take by contract: 0 to 99, or 2000 to 2099 (R123, R131, R145). -/
def yearInContract (y : Nat) : Bool := y ≤ 99 || (2000 ≤ y && y ≤ 2099)

/-- Days in a month, February by the divisible-by-4 rule of R143; 0 for no month. -/
def daysInMonth (y m : Nat) : Nat :=
  match m with
  | 1 | 3 | 5 | 7 | 8 | 10 | 12 => 31
  | 4 | 6 | 9 | 11 => 30
  | 2 => if y % 4 = 0 then 29 else 28
  | _ => 0

/-- The date and the time of day are valid and the year is in contract (R9, R145). The day of week takes no
part: it is "not used by arithmetic, purely descriptive". -/
def CalendarValue.validDateTime (c : CalendarValue) : Bool :=
  yearInContract c.year.toNat && 1 ≤ c.month.toNat && c.month.toNat ≤ 12 && 1 ≤ c.dom.toNat &&
    c.dom.toNat ≤ daysInMonth c.year.toNat c.month.toNat && c.hour.toNat ≤ 23 && c.minute.toNat ≤ 59 &&
    c.second.toNat ≤ 59

/-- The contract each command's rule states for its operands: R102 ("any byte"), R103, R117 to R123, R131,
R145, R155; every mode is accepted (R160). `RBLOAD`'s rule states none; the ranges of R21 are taken (log 20). -/
def Instr.inContract : Instr → Bool
  | .bin2bcd v => v.toNat ≤ 99
  | .setsec v => v.toNat ≤ 59
  | .setmin v => v.toNat ≤ 59
  | .sethour v => v.toNat ≤ 23
  | .setdow v => 1 ≤ v.toNat && v.toNat ≤ 7
  | .setdom v => 1 ≤ v.toNat && v.toNat ≤ 31
  | .setmon v => 1 ≤ v.toNat && v.toNat ≤ 12
  | .setyear h => yearInContract h.toNat
  | .rbload raw => raw.validFields
  | .calenc c => c.validDateTime && 1 ≤ c.dow.toNat && c.dow.toNat ≤ 7
  | .cal2ep c => c.validDateTime
  | .ep2cal e => 946684800 ≤ e.toNat && e.toNat ≤ 4102444799
  | .bcd2bin _ | .getsec | .getmin | .gethour | .getdow | .getdom | .getmon | .getyear => true
  | .rbdump | .caldec | .alm1pk _ | .alm2pk _ => true

end Sys2Proof
end

