-- ==== Sys2Proof/Decode.lean ====
section
/-! DEFINITION. Command words (`30_encoding.md`): the opcode map of R64 as data, the decoder (R65), the
encoder written from the same tables, and the structured assembler (R70, R71). The decoder is total and names
why it rejects a word (R68); R185 does not rank the reasons, so nothing the machine does depends on which. -/

namespace Sys2Proof

/-! ### Fields of a command word -/

/-- `op` = `cmd[71:64]` (R60). -/
def opcodeOf (cmd : CommandWord) : Opcode := cmd.extractLsb' 64 8

/-- `payload` = `cmd[63:0]` (R60). -/
def payloadOf (cmd : CommandWord) : Payload := cmd.extractLsb' 0 64

/-- Byte lane `k`: bits `[8k+7 : 8k]` of a payload or a data word (R42). -/
def byteLane (p : Payload) (k : Nat) : Byte := p.extractLsb' (8 * k) 8

/-- `raw[k] = payload[8k+7 : 8k]` (R61, R63). -/
def rawTimeOf (p : Payload) : RawTime where
  sec  := byteLane p 0
  min  := byteLane p 1
  hour := byteLane p 2
  dow  := byteLane p 3
  dom  := byteLane p 4
  mon  := byteLane p 5
  year := byteLane p 6

/-- Format `C` (R62). -/
def calendarOf (p : Payload) : CalendarValue where
  year   := p.extractLsb' 0 16
  month  := byteLane p 2
  dom    := byteLane p 3
  hour   := byteLane p 4
  minute := byteLane p 5
  second := byteLane p 6
  dow    := byteLane p 7

/-- The number whose byte lanes 0, 1, 2, … are the bytes given (R42). -/
def lanesToNat : List Byte → Nat
  | [] => 0
  | b :: rest => b.toNat + 2 ^ 8 * lanesToNat rest

/-- Bytes in lanes 0, 1, 2, … of a payload or data word, every lane above them zero (R42, R67). -/
def packLanes (bytes : List Byte) : Payload := BitVec.ofNat 64 (lanesToNat bytes)

/-- Seven raw bytes in lanes 0 to 6, in ascending chip address (R61, R67). -/
def RawTime.pack (t : RawTime) : Payload := packLanes [t.sec, t.min, t.hour, t.dow, t.dom, t.mon, t.year]

/-- The layout of R62, of the payload format `C` and of a CalendarValue in `data` (R67): the year in bits 15:0
and the six byte fields above it. -/
def CalendarValue.pack (c : CalendarValue) : Payload :=
  BitVec.ofNat 64 (c.year.toNat + 2 ^ 16 * lanesToNat [c.month, c.dom, c.hour, c.minute, c.second, c.dow])

/-! ### The opcode map -/

/-- The opcode of each command (R64). -/
def Mnemonic.opcode : Mnemonic → Opcode
  | .bcd2bin => 0x01
  | .bin2bcd => 0x02
  | .getsec => 0x10
  | .getmin => 0x11
  | .gethour => 0x12
  | .getdow => 0x13
  | .getdom => 0x14
  | .getmon => 0x15
  | .getyear => 0x16
  | .setsec => 0x20
  | .setmin => 0x21
  | .sethour => 0x22
  | .setdow => 0x23
  | .setdom => 0x24
  | .setmon => 0x25
  | .setyear => 0x26
  | .rbload => 0x30
  | .rbdump => 0x31
  | .caldec => 0x40
  | .calenc => 0x41
  | .cal2ep => 0x50
  | .ep2cal => 0x51
  | .alm1pk => 0x60
  | .alm2pk => 0x61

/-- One row of R64: a word spells the row's command exactly when `(cmd & mask) == match`. -/
structure OpcodeRow where
  mnemonic : Mnemonic
  mask     : CommandWord
  pattern  : CommandWord
  deriving DecidableEq, Repr

/-- `(cmd & mask) == match` (R64, R65). -/
def OpcodeRow.spells (r : OpcodeRow) (cmd : CommandWord) : Bool := cmd &&& r.mask == r.pattern

/-- The rows of the codec and the getters, as R64 prints them. -/
def opcodeRowsLow : List OpcodeRow := [
  ⟨.bcd2bin, 0xFFFFFFFFFFFFFFFF00, 0x010000000000000000⟩,
  ⟨.bin2bcd, 0xFFFFFFFFFFFFFFFF00, 0x020000000000000000⟩,
  ⟨.getsec,  0xFFFFFFFFFFFFFFFFFF, 0x100000000000000000⟩,
  ⟨.getmin,  0xFFFFFFFFFFFFFFFFFF, 0x110000000000000000⟩,
  ⟨.gethour, 0xFFFFFFFFFFFFFFFFFF, 0x120000000000000000⟩,
  ⟨.getdow,  0xFFFFFFFFFFFFFFFFFF, 0x130000000000000000⟩,
  ⟨.getdom,  0xFFFFFFFFFFFFFFFFFF, 0x140000000000000000⟩,
  ⟨.getmon,  0xFFFFFFFFFFFFFFFFFF, 0x150000000000000000⟩,
  ⟨.getyear, 0xFFFFFFFFFFFFFFFFFF, 0x160000000000000000⟩]

/-- The rows of the setters. -/
def opcodeRowsSetters : List OpcodeRow := [
  ⟨.setsec,  0xFFFFFFFFFFFFFFFF00, 0x200000000000000000⟩,
  ⟨.setmin,  0xFFFFFFFFFFFFFFFF00, 0x210000000000000000⟩,
  ⟨.sethour, 0xFFFFFFFFFFFFFFFF00, 0x220000000000000000⟩,
  ⟨.setdow,  0xFFFFFFFFFFFFFFFF00, 0x230000000000000000⟩,
  ⟨.setdom,  0xFFFFFFFFFFFFFFFF00, 0x240000000000000000⟩,
  ⟨.setmon,  0xFFFFFFFFFFFFFFFF00, 0x250000000000000000⟩,
  ⟨.setyear, 0xFFFFFFFFFFFFFF0000, 0x260000000000000000⟩]

/-- The rows of the other families. -/
def opcodeRowsHigh : List OpcodeRow := [
  ⟨.rbload,  0xFFFF00000000000000, 0x300000000000000000⟩,
  ⟨.rbdump,  0xFFFFFFFFFFFFFFFFFF, 0x310000000000000000⟩,
  ⟨.caldec,  0xFFFFFFFFFFFFFFFFFF, 0x400000000000000000⟩,
  ⟨.calenc,  0xFF0000000000000000, 0x410000000000000000⟩,
  ⟨.cal2ep,  0xFF0000000000000000, 0x500000000000000000⟩,
  ⟨.ep2cal,  0xFFFFFFFFFF00000000, 0x510000000000000000⟩,
  ⟨.alm1pk,  0xFFFFFFFFFFFFFFFFE0, 0x600000000000000000⟩,
  ⟨.alm2pk,  0xFFFFFFFFFFFFFFFFE0, 0x610000000000000000⟩]

/-- The opcode map of R64, all 24 rows. -/
def opcodeTable : List OpcodeRow := opcodeRowsLow ++ opcodeRowsSetters ++ opcodeRowsHigh

/-! ### The decoder -/

/-- Why a word spells no command (R68 (a) and (b)). -/
inductive IllegalWord where
  /-- `cmd[71:64]` is not one of the 24 opcodes. -/
  | unassignedOpcode (op : Opcode)
  /-- A reserved payload bit of the opcode's format is 1. -/
  | reservedBitSet (op : Opcode)
  deriving DecidableEq, Repr

/-- How many low payload bits a format uses; the bits above are reserved (R61). -/
def PayloadFormat.operandBits : PayloadFormat → Nat
  | .n => 0
  | .b => 8
  | .h => 16
  | .w => 32
  | .r => 56
  | .c => 64
  | .m => 5

/-- Every reserved payload bit is 0 (R61, R68). -/
def reservedClear (f : PayloadFormat) (p : Payload) : Bool := p >>> f.operandBits == 0

/-- The command `i` if the word's reserved bits are clear. -/
def decodeAs (f : PayloadFormat) (i : Instr) (cmd : CommandWord) : Except IllegalWord Instr :=
  if reservedClear f (payloadOf cmd) then .ok i else .error (.reservedBitSet (opcodeOf cmd))

/-- Decoding, total on every 72-bit word (R65): "The opcode alone selects the command and its payload format"
(R60). That it accepts exactly the words of `opcodeTable` is a statement of its own. -/
def decode (cmd : CommandWord) : Except IllegalWord Instr :=
  let p := payloadOf cmd
  match (opcodeOf cmd).toNat with
  | 0x01 => decodeAs .b (.bcd2bin (byteLane p 0)) cmd
  | 0x02 => decodeAs .b (.bin2bcd (byteLane p 0)) cmd
  | 0x10 => decodeAs .n .getsec cmd
  | 0x11 => decodeAs .n .getmin cmd
  | 0x12 => decodeAs .n .gethour cmd
  | 0x13 => decodeAs .n .getdow cmd
  | 0x14 => decodeAs .n .getdom cmd
  | 0x15 => decodeAs .n .getmon cmd
  | 0x16 => decodeAs .n .getyear cmd
  | 0x20 => decodeAs .b (.setsec (byteLane p 0)) cmd
  | 0x21 => decodeAs .b (.setmin (byteLane p 0)) cmd
  | 0x22 => decodeAs .b (.sethour (byteLane p 0)) cmd
  | 0x23 => decodeAs .b (.setdow (byteLane p 0)) cmd
  | 0x24 => decodeAs .b (.setdom (byteLane p 0)) cmd
  | 0x25 => decodeAs .b (.setmon (byteLane p 0)) cmd
  | 0x26 => decodeAs .h (.setyear (p.extractLsb' 0 16)) cmd
  | 0x30 => decodeAs .r (.rbload (rawTimeOf p)) cmd
  | 0x31 => decodeAs .n .rbdump cmd
  | 0x40 => decodeAs .n .caldec cmd
  | 0x41 => decodeAs .c (.calenc (calendarOf p)) cmd
  | 0x50 => decodeAs .c (.cal2ep (calendarOf p)) cmd
  | 0x51 => decodeAs .w (.ep2cal (p.extractLsb' 0 32)) cmd
  | 0x60 => decodeAs .m (.alm1pk (p.extractLsb' 0 5)) cmd
  | 0x61 => decodeAs .m (.alm2pk (p.extractLsb' 0 5)) cmd
  | _ => .error (.unassignedOpcode (opcodeOf cmd))

/-! ### The encoder -/

/-- The payload of a command: its operands in their fields, every reserved bit 0 (R61, R62). -/
def Instr.payload : Instr → Payload
  | .bcd2bin b => b.setWidth 64
  | .bin2bcd v => v.setWidth 64
  | .setsec v => v.setWidth 64
  | .setmin v => v.setWidth 64
  | .sethour v => v.setWidth 64
  | .setdow v => v.setWidth 64
  | .setdom v => v.setWidth 64
  | .setmon v => v.setWidth 64
  | .setyear h => h.setWidth 64
  | .rbload raw => raw.pack
  | .calenc c => c.pack
  | .cal2ep c => c.pack
  | .ep2cal e => e.setWidth 64
  | .alm1pk mode => mode.setWidth 64
  | .alm2pk mode => mode.setWidth 64
  | .getsec | .getmin | .gethour | .getdow | .getdom | .getmon | .getyear => 0
  | .rbdump | .caldec => 0

/-- The one word that spells a command (R60, R65). -/
def encode (i : Instr) : CommandWord :=
  BitVec.ofNat 72 (i.mnemonic.opcode.toNat * 2 ^ 64 + i.payload.toNat)

/-! ### The host's view of a word

A command is ONE 72-bit word, so bit `k` of the host's number is `cmd[k]` (log 7). -/

/-- The command word whose low `nbits` bits are those of `w` and whose other bits are 0. -/
def commandWord (nbits w : Nat) : CommandWord := BitVec.ofNat 72 (w % 2 ^ nbits)

/-- What the decoder reads from the word of a row of `spec/opcode_table.json`; none where it rejects it. -/
def decodeTableWord (nbits w : Nat) : Option Instr := (decode (commandWord nbits w)).toOption

/-! ### The assembler, on numbers

The text of a line is read in `Machine/Assembler.lean`. -/

/-- The value of a named mode (R71, R161). -/
def NamedMode.value : NamedMode → Mode
  | .everySecond => 15
  | .everyMinute => 14
  | .everyHour => 12
  | .everyDay => 8
  | .everyWeek => 16
  | .everyMonth => 0

/-- Why a line spells no command. -/
inductive AsmError where
  | operandCount
  | operandTooWide
  deriving DecidableEq, Repr

/-- Seven numbers in the order of R70 for `RBLOAD`. -/
def rawTimeOfNats (ops : List Nat) : RawTime where
  sec  := BitVec.ofNat 8 (ops.getD 0 0)
  min  := BitVec.ofNat 8 (ops.getD 1 0)
  hour := BitVec.ofNat 8 (ops.getD 2 0)
  dow  := BitVec.ofNat 8 (ops.getD 3 0)
  dom  := BitVec.ofNat 8 (ops.getD 4 0)
  mon  := BitVec.ofNat 8 (ops.getD 5 0)
  year := BitVec.ofNat 8 (ops.getD 6 0)

/-- Seven numbers in the order of R70 for `CALENC` and `CAL2EP`. -/
def calendarOfNats (ops : List Nat) : CalendarValue where
  year   := BitVec.ofNat 16 (ops.getD 0 0)
  month  := BitVec.ofNat 8 (ops.getD 1 0)
  dom    := BitVec.ofNat 8 (ops.getD 2 0)
  hour   := BitVec.ofNat 8 (ops.getD 3 0)
  minute := BitVec.ofNat 8 (ops.getD 4 0)
  second := BitVec.ofNat 8 (ops.getD 5 0)
  dow    := BitVec.ofNat 8 (ops.getD 6 0)

/-- The command with a mnemonic and operands that fit (R61 to R63). -/
def instrOfNats (m : Mnemonic) (ops : List Nat) : Instr :=
  let byte : Byte := BitVec.ofNat 8 (ops.getD 0 0)
  match m with
  | .bcd2bin => .bcd2bin byte
  | .bin2bcd => .bin2bcd byte
  | .getsec => .getsec
  | .getmin => .getmin
  | .gethour => .gethour
  | .getdow => .getdow
  | .getdom => .getdom
  | .getmon => .getmon
  | .getyear => .getyear
  | .setsec => .setsec byte
  | .setmin => .setmin byte
  | .sethour => .sethour byte
  | .setdow => .setdow byte
  | .setdom => .setdom byte
  | .setmon => .setmon byte
  | .setyear => .setyear (BitVec.ofNat 16 (ops.getD 0 0))
  | .rbload => .rbload (rawTimeOfNats ops)
  | .rbdump => .rbdump
  | .caldec => .caldec
  | .calenc => .calenc (calendarOfNats ops)
  | .cal2ep => .cal2ep (calendarOfNats ops)
  | .ep2cal => .ep2cal (BitVec.ofNat 32 (ops.getD 0 0))
  | .alm1pk => .alm1pk (BitVec.ofNat 5 (ops.getD 0 0))
  | .alm2pk => .alm2pk (BitVec.ofNat 5 (ops.getD 0 0))

/-- The command a line spells (R70, R71). -/
def assemble (l : AsmLine) : Except AsmError Instr :=
  if !l.countOk then .error .operandCount
  else if !l.widthsOk then .error .operandTooWide
  else .ok (instrOfNats l.mnemonic l.fullOperands)

/-- The operands of a CalendarValue in the order of R70. -/
def CalendarValue.toNats (c : CalendarValue) : List Nat :=
  [c.year.toNat, c.month.toNat, c.dom.toNat, c.hour.toNat, c.minute.toNat, c.second.toNat, c.dow.toNat]

/-- The operands of `RBLOAD` in the order of R70. -/
def RawTime.toNats (t : RawTime) : List Nat :=
  [t.sec.toNat, t.min.toNat, t.hour.toNat, t.dow.toNat, t.dom.toNat, t.mon.toNat, t.year.toNat]

/-- The operands of a command in the order of R70. -/
def Instr.operands : Instr → List Nat
  | .bcd2bin b => [b.toNat]
  | .bin2bcd v => [v.toNat]
  | .setsec v => [v.toNat]
  | .setmin v => [v.toNat]
  | .sethour v => [v.toNat]
  | .setdow v => [v.toNat]
  | .setdom v => [v.toNat]
  | .setmon v => [v.toNat]
  | .setyear h => [h.toNat]
  | .rbload raw => raw.toNats
  | .calenc c => c.toNats
  | .cal2ep c => c.toNats
  | .ep2cal e => [e.toNat]
  | .alm1pk mode => [mode.toNat]
  | .alm2pk mode => [mode.toNat]
  | .getsec | .getmin | .gethour | .getdow | .getdom | .getmon | .getyear => []
  | .rbdump | .caldec => []

/-- The line that spells a command (R70). -/
def Instr.toAsm (i : Instr) : AsmLine := ⟨i.mnemonic, i.operands⟩

end Sys2Proof
end

