-- ==== Sys2Proof/Machine/State.lean ====
section
/-! DEFINITION. The state of the machine, its response, the host's events at its command port, the reasons a
step can stop, and the state after reset. -/

namespace Sys2Proof.Machine

/-- The `status` field of a response, 1 bit: `Status.bit` gives its value (R66). -/
inductive Status where
  /-- 0 = `OK`: the command was legal and was executed. -/
  | ok
  /-- 1 = `ILLEGAL`: the word spells no command; nothing was executed. -/
  | illegal
  deriving DecidableEq, Repr

/-- The response of one command (R66). -/
structure Response where
  status   : Status
  data     : Payload
  busAddr  : Byte
  busCount : BitVec 4
  deriving DecidableEq, Repr

/-- What the host does at the block between steps: present a command word (R10) or reset the block (R201). -/
inductive PortEvent where
  | command (word : CommandWord)
  | reset
  deriving DecidableEq, Repr

/-- The state. `rb` is the block's only state (R20). `port` and `response` are the MODEL's own: what the host
presents, in its order (R50; log 1), and the response of the last command (R66; log 2). No command reads
either: a command's effect depends on its word and `rb` alone (R10). -/
structure State where
  rb       : RawTime
  port     : List PortEvent
  response : Option Response
  deriving DecidableEq, Repr

/-- A fault would stop the machine. The spec has none: "All failures are local and recoverable" and its one
exception, `IllegalCommand`, is a response after which the next command runs normally (R180, R182, R187), so it
is taken as a next state (log 5). Nobody raises a fault; safe. -/
inductive Fault where
  deriving DecidableEq, Repr

/-- Why an instruction is refused. -/
inductive Refusal where
  /-- The instruction has no meaning yet. Raised only by an arm of `exec`; none does. Safe. -/
  | notModelled (mnemonic : String)
  deriving DecidableEq, Repr

/-- The machine right after reset (R25, R200): every Register Buffer byte is 0x00. The empty port and the absent
response are the model's own (DESIGN CHOICE, log 6). -/
def State.reset : State where
  rb := ⟨Config.rbResetByte, Config.rbResetByte, Config.rbResetByte, Config.rbResetByte,
    Config.rbResetByte, Config.rbResetByte, Config.rbResetByte⟩
  port := []
  response := none

end Sys2Proof.Machine
end

