-- ==== Sys2Proof/Machine/Flags.lean ====
section
/-! DEFINITION. The block has no flags, condition codes or predicates (R28). Its one error indication is the
`status` field of a response, so this file builds responses: "A field not mentioned is 0" (R7, R66). -/

namespace Sys2Proof.Machine

/-- The bit a status is reported as (R66, R180). -/
def Status.bit : Status → BitVec 1
  | .ok => 0
  | .illegal => 1

/-- The response of a legal command that hands over no chip bytes. -/
def Response.okData (data : Payload) : Response := ⟨.ok, data, 0, 0⟩

/-- The response of a legal command that hands `count` chip bytes to the host for chip address `addr` (R44). -/
def Response.okBus (data : Payload) (addr : Byte) (count : BitVec 4) : Response := ⟨.ok, data, addr, count⟩

/-- `resp <- {status=1, data=0, bus_addr=0, bus_count=0}` (R7, R180). -/
def Response.illegalCommand : Response := ⟨.illegal, 0, 0, 0⟩

end Sys2Proof.Machine
end

