-- ==== Sys2Proof/Machine/Operands.lean ====
section
/-! DEFINITION. Operand and result forms: the two BCD functions every family uses (`40_bcd_codec.md` R100,
R101), the year normaliser (R142), and the placement of results in `data` (R67). Rules compute over unbounded
integers and narrow where R171 says; so do these. Byte lanes and the CalendarValue layout are `packLanes` and
`CalendarValue.pack` of `Decode.lean`, the same for a payload and for `data`. -/

namespace Sys2Proof.Machine

/-- `BCD2BIN(b) = b[7:4] * 10 + b[3:0]`, total on all bytes, at most 165 (R100; log 11). -/
def bcdToBinary (b : Byte) : Byte :=
  BitVec.ofNat 8 ((b.extractLsb' 4 4).toNat * 10 + (b.extractLsb' 0 4).toNat)

/-- `BIN2BCD(v) = trunc_8( ((v div 10) << 4) | (v mod 10) )` (R101; log 11). -/
def binaryToBcd (v : Byte) : Byte :=
  BitVec.ofNat 8 (((v.toNat / 10) <<< 4) ||| (v.toNat % 10))

/-- `OFFS(year)`: "if given as 4-digit ≥2000, subtract 2000"; 100 to 1999 stand as they are (R142; log 10). -/
def offsetYear (year : Year) : Nat :=
  if year.toNat ≥ Config.yearBase then year.toNat - Config.yearBase else year.toNat

/-- The year byte `SETYEAR` and `CALENC` store: `BIN2BCD(trunc_8(y))` (R123, R131; log 10). -/
def yearByte (year : Year) : Byte := binaryToBcd (BitVec.ofNat 8 (offsetYear year))

/-- `zext_64` of a byte (R7, R67). -/
def dataOfByte (b : Byte) : Payload := b.setWidth 64

end Sys2Proof.Machine
end

