-- ==== Sys2Proof/Machine/Ops.lean ====
section
/-! DEFINITION. The shared operations over the Register Buffer, the command port and the response (R7), the one
exception (R180), the reset event (R201) and the host's reading of a response's chip bytes (R44). -/

namespace Sys2Proof.Machine

/-! ### The Register Buffer -/

/-- The index `i` of a field: `RB[i]`, and the chip address it mirrors (R8, R21). -/
def fieldIndex : RegField → Nat
  | .sec => 0
  | .min => 1
  | .hour => 2
  | .dow => 3
  | .dom => 4
  | .mon => 5
  | .year => 6

/-- `RB[i]`: read one byte (R7). -/
def readByte (t : RawTime) : RegField → Byte
  | .sec => t.sec
  | .min => t.min
  | .hour => t.hour
  | .dow => t.dow
  | .dom => t.dom
  | .mon => t.mon
  | .year => t.year

/-- `RB[i] <- v`: write one byte (R7). -/
def writeByte (t : RawTime) (f : RegField) (v : Byte) : RawTime :=
  match f with
  | .sec => { t with sec := v }
  | .min => { t with min := v }
  | .hour => { t with hour := v }
  | .dow => { t with dow := v }
  | .dom => { t with dom := v }
  | .mon => { t with mon := v }
  | .year => { t with year := v }

/-! ### Ending a command -/

/-- `resp <- …`: the command ends with one response and leaves the buffer alone (R66). -/
def State.respond (s : State) (r : Response) : State := { s with response := some r }

/-- Write one byte of the buffer and respond with no data (R117 to R123). -/
def State.storeField (s : State) (f : RegField) (v : Byte) : State :=
  { s with rb := writeByte s.rb f v, response := some (Response.okData 0) }

/-- Write all seven bytes in one step and respond (R46). -/
def State.storeAll (s : State) (t : RawTime) (r : Response) : State :=
  { s with rb := t, response := some r }

/-- `raise IllegalCommand(cmd)`: the block's only exception (R7, R180). It saves nothing, changes no mode and
goes nowhere (R186); its whole effect is the response. There is no return from it and no nesting: "The command
after an illegal one is executed normally on the unchanged Register Buffer" (R187). -/
def State.raiseIllegalCommand (s : State) : State := s.respond Response.illegalCommand

/-- The reset event between commands: "one more step that sets `RB` to all zeros" (R201). What the host presents
after it stays presented, and the response of the command before it is gone (DESIGN CHOICE, log 4). -/
def State.resetEvent (s : State) : State := { State.reset with port := s.port }

/-! ### The command port -/

/-- Take the next event the host presents, and the state with it taken (R10, R50). -/
def State.takeEvent (s : State) : Option (PortEvent × State) :=
  match s.port with
  | [] => none
  | e :: rest => some (e, { s with port := rest })

/-- A step with nothing presented: nothing happens (DESIGN CHOICE, log 3). -/
def State.idle (s : State) : State := s

/-! ### The host's side of a response -/

/-- The bytes of `data` that are for the chip, each with its chip address: `bus_count` bytes from `data[7:0]`
upward, the first for `bus_addr` (R41, R44, R66). The host writes them; the block does not (log 18). -/
def Response.chipCells (r : Response) : List Host.Cell :=
  (List.range r.busCount.toNat).map fun k => (r.busAddr.toNat + k, byteLane r.data k)

end Sys2Proof.Machine
end

