-- ==== Sys2Proof/Machine/AlarmPacker.lean ====
section
/-! DEFINITION. The alarm field packer (`44_alarm_packer.md`): bit placement and nothing more (R161; log 14).
The block says nothing of what the chip then does. -/

namespace Sys2Proof.Machine

/-- Bit `k` of the mode, placed at bit `pos` of a byte: `mode[k] << pos` (R160, R164). -/
def modeBitAt (mode : Mode) (k pos : Nat) : Byte := (mode.extractLsb' k 1).setWidth 8 <<< pos

/-- `DAYSRC`: day of week if `DYDT` (`mode[4]`), else day of month (R163). -/
def daySource (mode : Mode) (t : RawTime) : Byte := if mode.getLsbD 4 then t.dow else t.dom

/-- The alarm seconds byte: bit 7 takes `M1` (R162). -/
def alarmSeconds (mode : Mode) (t : RawTime) : Byte := t.sec ||| modeBitAt mode 0 7

/-- The alarm minutes byte: bit 7 takes `M2` (R162). -/
def alarmMinutes (mode : Mode) (t : RawTime) : Byte := t.min ||| modeBitAt mode 1 7

/-- The alarm hours byte: bit 7 takes `M3` (R162). -/
def alarmHours (mode : Mode) (t : RawTime) : Byte := t.hour ||| modeBitAt mode 2 7

/-- The alarm day byte: bit 7 takes `M4`, bit 6 takes `DYDT` (R162). -/
def alarmDay (mode : Mode) (t : RawTime) : Byte :=
  daySource mode t ||| modeBitAt mode 3 7 ||| modeBitAt mode 4 6

/-- Channel 1's four bytes, ascending chip address (R162, R164). -/
def alarm1Bytes (mode : Mode) (t : RawTime) : List Byte :=
  [alarmSeconds mode t, alarmMinutes mode t, alarmHours mode t, alarmDay mode t]

/-- Channel 2's three bytes: no seconds byte, so `M1` has nowhere to land (R162, R165). -/
def alarm2Bytes (mode : Mode) (t : RawTime) : List Byte :=
  [alarmMinutes mode t, alarmHours mode t, alarmDay mode t]

/-- `ALM1PK mode` (R164). -/
def execAlm1pk (mode : Mode) (s : State) : Host.Outcome State Fault Refusal :=
  .next (s.respond
    (Response.okBus (packLanes (alarm1Bytes mode s.rb)) Config.alarm1Base Config.alarm1Len))

/-- `ALM2PK mode` (R165). -/
def execAlm2pk (mode : Mode) (s : State) : Host.Outcome State Fault Refusal :=
  .next (s.respond
    (Response.okBus (packLanes (alarm2Bytes mode s.rb)) Config.alarm2Base Config.alarm2Len))

end Sys2Proof.Machine
end

