-- ==== Sys2Proof/Machine/BcdCodec.lean ====
section
/-! DEFINITION. The BCD codec's two commands (`40_bcd_codec.md`). -/

namespace Sys2Proof.Machine

/-- `BCD2BIN b` (R102). -/
def execBcd2bin (b : Byte) (s : State) : Host.Outcome State Fault Refusal :=
  .next (s.respond (Response.okData (dataOfByte (bcdToBinary b))))

/-- `BIN2BCD v` (R103). -/
def execBin2bcd (v : Byte) (s : State) : Host.Outcome State Fault Refusal :=
  .next (s.respond (Response.okData (dataOfByte (binaryToBcd v))))

end Sys2Proof.Machine
end

