-- ==== Sys2Proof/Machine/CalendarCodec.lean ====
section
/-! DEFINITION. The Calendar Codec's two commands (`42_calendar_codec.md`). -/

namespace Sys2Proof.Machine

/-- `decode() -> CalendarValue`: the BCD codec on every byte, the year `2000 +` the stored offset (R130). -/
def decodeCalendar (t : RawTime) : CalendarValue where
  year   := BitVec.ofNat 16 (Config.yearBase + (bcdToBinary t.year).toNat)
  month  := bcdToBinary t.mon
  dom    := bcdToBinary t.dom
  hour   := bcdToBinary t.hour
  minute := bcdToBinary t.min
  second := bcdToBinary t.sec
  dow    := bcdToBinary t.dow

/-- `encode(CalendarValue)`: the seven bytes `CALENC` writes (R131), and the path `EP2CAL` writes back through
(R155). -/
def encodeCalendar (c : CalendarValue) : RawTime where
  sec  := binaryToBcd c.second
  min  := binaryToBcd c.minute
  hour := binaryToBcd c.hour
  dow  := binaryToBcd c.dow
  dom  := binaryToBcd c.dom
  mon  := binaryToBcd c.month
  year := yearByte c.year

/-- `CALDEC` (R130). -/
def execCaldec (s : State) : Host.Outcome State Fault Refusal :=
  .next (s.respond (Response.okData (decodeCalendar s.rb).pack))

/-- `CALENC` (R131): no validity checking. -/
def execCalenc (c : CalendarValue) (s : State) : Host.Outcome State Fault Refusal :=
  .next (s.storeAll (encodeCalendar c) (Response.okData 0))

end Sys2Proof.Machine
end

