-- ==== Sys2Proof/Machine/EpochConverter.lean ====
section
/-! DEFINITION. The Epoch Converter (`43_epoch_converter.md`): one definition for each sub-block R141 to R154,
and the two commands. Quantities are unbounded integers unless a width is written (R7). -/

namespace Sys2Proof.Machine

/-! ### Shared sub-blocks -/

/-- `CUM(m)`: the cumulative-days table; 0 for a month outside 1 to 12 (R141; log 8). -/
def cum (m : Nat) : Nat :=
  if 1 ≤ m ∧ m ≤ 12 then Config.cumDays.getD (m - 1) 0 else Config.cumOutOfRange

/-- `LEAPDAYS(y, m)`: the leap-day counter (R143, C8; log 10). -/
def leapDays (y m : Nat) : Nat :=
  ((y + 3) >>> 2) + (if y % 4 = 0 ∧ m > 2 then 1 else 0)

/-- `DAYS(c)`: the day accumulator, −1 for a day of month of 0 at the very start (R144; log 9). -/
def daysOf (c : CalendarValue) : Int :=
  let y := offsetYear c.year
  (y * 365 + leapDays y c.month.toNat + cum c.month.toNat : Nat) + ((c.dom.toNat : Int) - 1)

/-! ### Calendar to epoch -/

/-- `total` of R145: steps 1 to 6, over the integers. -/
def epochTotal (c : CalendarValue) : Int :=
  daysOf c * Config.secPerDay + (c.hour.toNat * 3600 + c.minute.toNat * 60 + c.second.toNat : Nat)
    + Config.refUnix

/-- `trunc_32(total)` (R145; log 9). -/
def calendarToEpoch (c : CalendarValue) : EpochSeconds := BitVec.ofInt 32 (epochTotal c)

/-- `CAL2EP` (R145): the buffer is neither read nor written. -/
def execCal2ep (c : CalendarValue) (s : State) : Host.Outcome State Fault Refusal :=
  .next (s.respond (Response.okData ((calendarToEpoch c).setWidth 64)))

/-! ### Epoch to calendar -/

/-- The fields R147 splits a time into. -/
structure DayTime where
  second : Nat
  minute : Nat
  hour   : Nat
  days   : Nat
  deriving DecidableEq, Repr

/-- The time-of-day splitter, for `t = e - 946684800` (R147). -/
def splitTime (t : Nat) : DayTime where
  second := t % 60
  minute := t / 60 % 60
  hour   := t / 60 / 60 % 24
  days   := t / 60 / 60 / 24

/-- `remainder` of the four-year-block walker (R148). -/
def blockRemainder (days : Nat) : Nat := days % Config.blockDays

/-- `periods`: the 29 Februaries strictly before the day (R148). -/
def periods (days : Nat) : Nat :=
  if blockRemainder days ≥ Config.leapMark then days / Config.blockDays + 1 else days / Config.blockDays

/-- `years`: the offset year (R149). -/
def yearsOf (days : Nat) : Nat := (days - periods days) / 365

/-- `doy`: the 0-based day of the year, with the correction inside a leap year (R149). -/
def dayOfYear (days : Nat) : Nat :=
  days - yearsOf days * 365 - periods days
    + (if Config.leapMark ≤ blockRemainder days ∧ blockRemainder days ≤ 365 then 1 else 0)

/-- The leap test of the month walk (R151). -/
def isLeapOffset (years : Nat) : Bool := years % 4 == 0

/-- `thr(m)`: the month's cumulative threshold (R152, R153). -/
def monthThreshold (leap : Bool) (m : Nat) : Nat := cum m + (if leap && 3 ≤ m then 1 else 0)

/-- The month walker's loop from candidate `m` downward (R152). It ends at 1 at the latest, since `thr(1)` = 0,
so the 0 at the end of the recursion is never an answer from `m` ≥ 1. -/
def monthWalk (leap : Bool) (doy : Nat) : Nat → Nat
  | 0 => 0
  | m + 1 => if monthThreshold leap (m + 1) > doy then monthWalk leap doy m else m + 1

/-- `month` (R152): "from month 12 downward". -/
def monthOf (days : Nat) : Nat := monthWalk (isLeapOffset (yearsOf days)) (dayOfYear days) 12

/-- `dom` (R152). -/
def dayOfMonth (days : Nat) : Nat :=
  dayOfYear days - monthThreshold (isLeapOffset (yearsOf days)) (monthOf days) + 1

/-- `dow`, 4 = Saturday, stored without adjustment (R154, C2, C3; log 13). -/
def dayOfWeek (days : Nat) : Nat := (days + Config.dowOffset) % 7

/-- The CalendarValue of an instant `t` seconds after the reference (R147 to R155). Every field fits its width
(R171), also beyond 2099 (log 10). -/
def calendarSinceReference (t : Nat) : CalendarValue :=
  let d := splitTime t
  { year   := BitVec.ofNat 16 (Config.yearBase + yearsOf d.days)
    month  := BitVec.ofNat 8 (monthOf d.days)
    dom    := BitVec.ofNat 8 (dayOfMonth d.days)
    hour   := BitVec.ofNat 8 d.hour
    minute := BitVec.ofNat 8 d.minute
    second := BitVec.ofNat 8 d.second
    dow    := BitVec.ofNat 8 (dayOfWeek d.days) }

/-- The all-zero fallback calendar (R150). -/
def zeroCalendar : CalendarValue := ⟨0, 0, 0, 0, 0, 0, 0⟩

/-- `epoch_to_calendar`: the fallback below the reference, the conversion from the reference up (R150, R155). -/
def epochToCalendar (e : EpochSeconds) : CalendarValue :=
  if e.toNat < Config.refUnix then zeroCalendar else calendarSinceReference (e.toNat - Config.refUnix)

/-- `EP2CAL` (R155): the CalendarValue is returned and written back through the Calendar Codec's encode path. The
fallback is a result like any other (R183), and its zero fields are written back by the same path, which zeroes
all seven bytes (R150; log 12). -/
def execEp2cal (e : EpochSeconds) (s : State) : Host.Outcome State Fault Refusal :=
  .next (s.storeAll (encodeCalendar (epochToCalendar e)) (Response.okData (epochToCalendar e).pack))

end Sys2Proof.Machine
end

