-- ==== Sys2Proof/Machine/RegisterBuffer.lean ====
section
/-! DEFINITION. The Register Buffer's commands (`41_register_buffer.md`). -/

namespace Sys2Proof.Machine

/-! ### Getters: the whole byte decoded, no bit masked (R21) -/

/-- A getter's effect on any field: `resp <- {status = 0, data = zext_64(BCD2BIN(RB[i]))}`. -/
def getField (f : RegField) (s : State) : Host.Outcome State Fault Refusal :=
  .next (s.respond (Response.okData (dataOfByte (bcdToBinary (readByte s.rb f)))))

/-- `GETSEC` (R110). -/
def execGetsec (s : State) : Host.Outcome State Fault Refusal := getField .sec s

/-- `GETMIN` (R111). -/
def execGetmin (s : State) : Host.Outcome State Fault Refusal := getField .min s

/-- `GETHOUR` (R112). -/
def execGethour (s : State) : Host.Outcome State Fault Refusal := getField .hour s

/-- `GETDOW` (R113). -/
def execGetdow (s : State) : Host.Outcome State Fault Refusal := getField .dow s

/-- `GETDOM` (R114). -/
def execGetdom (s : State) : Host.Outcome State Fault Refusal := getField .dom s

/-- `GETMON` (R115). -/
def execGetmon (s : State) : Host.Outcome State Fault Refusal := getField .mon s

/-- `GETYEAR` (R116): the offset year, 2000 not added (log 15). -/
def execGetyear (s : State) : Host.Outcome State Fault Refusal := getField .year s

/-! ### Setters: exactly one byte written, no operand validated -/

/-- A byte-wide setter's effect on any field: `RB[i] <- BIN2BCD(v); resp <- {status = 0, data = 0}`. -/
def setField (f : RegField) (v : Byte) (s : State) : Host.Outcome State Fault Refusal :=
  .next (s.storeField f (binaryToBcd v))

/-- `SETSEC v` (R117). -/
def execSetsec (v : Byte) (s : State) : Host.Outcome State Fault Refusal := setField .sec v s

/-- `SETMIN v` (R118). -/
def execSetmin (v : Byte) (s : State) : Host.Outcome State Fault Refusal := setField .min v s

/-- `SETHOUR v` (R119). -/
def execSethour (v : Byte) (s : State) : Host.Outcome State Fault Refusal := setField .hour v s

/-- `SETDOW v` (R120). -/
def execSetdow (v : Byte) (s : State) : Host.Outcome State Fault Refusal := setField .dow v s

/-- `SETDOM v` (R121). -/
def execSetdom (v : Byte) (s : State) : Host.Outcome State Fault Refusal := setField .dom v s

/-- `SETMON v` (R122). -/
def execSetmon (v : Byte) (s : State) : Host.Outcome State Fault Refusal := setField .mon v s

/-- `SETYEAR h` (R123): normalise, narrow to 8 bits, encode (log 10). -/
def execSetyear (h : Year) (s : State) : Host.Outcome State Fault Refusal :=
  .next (s.storeField .year (yearByte h))

/-! ### Whole-buffer transfer -/

/-- `RBLOAD` (R124): "stored as given, with no masking, validation or normalisation". -/
def execRbload (raw : RawTime) (s : State) : Host.Outcome State Fault Refusal :=
  .next (s.storeAll raw (Response.okData 0))

/-- `RBDUMP` (R125). -/
def execRbdump (s : State) : Host.Outcome State Fault Refusal :=
  .next (s.respond (Response.okBus s.rb.pack Config.timeBase Config.timeLen))

end Sys2Proof.Machine
end

