-- ==== Sys2Proof/Machine/Dispatch.lean ====
section
/-! DEFINITION. One arm per command of R64, each one call of its meaning. -/

namespace Sys2Proof.Machine

def exec (i : Instr) (s : State) : Host.Outcome State Fault Refusal :=
  match i with
  | .bcd2bin b => Sys2Proof.Machine.execBcd2bin b s
  | .bin2bcd v => Sys2Proof.Machine.execBin2bcd v s
  | .getsec => Sys2Proof.Machine.execGetsec s
  | .getmin => Sys2Proof.Machine.execGetmin s
  | .gethour => Sys2Proof.Machine.execGethour s
  | .getdow => Sys2Proof.Machine.execGetdow s
  | .getdom => Sys2Proof.Machine.execGetdom s
  | .getmon => Sys2Proof.Machine.execGetmon s
  | .getyear => Sys2Proof.Machine.execGetyear s
  | .setsec v => Sys2Proof.Machine.execSetsec v s
  | .setmin v => Sys2Proof.Machine.execSetmin v s
  | .sethour v => Sys2Proof.Machine.execSethour v s
  | .setdow v => Sys2Proof.Machine.execSetdow v s
  | .setdom v => Sys2Proof.Machine.execSetdom v s
  | .setmon v => Sys2Proof.Machine.execSetmon v s
  | .setyear h => Sys2Proof.Machine.execSetyear h s
  | .rbload raw => Sys2Proof.Machine.execRbload raw s
  | .rbdump => Sys2Proof.Machine.execRbdump s
  | .caldec => Sys2Proof.Machine.execCaldec s
  | .calenc c => Sys2Proof.Machine.execCalenc c s
  | .cal2ep c => Sys2Proof.Machine.execCal2ep c s
  | .ep2cal e => Sys2Proof.Machine.execEp2cal e s
  | .alm1pk mode => Sys2Proof.Machine.execAlm1pk mode s
  | .alm2pk mode => Sys2Proof.Machine.execAlm2pk mode s

end Sys2Proof.Machine
end

