-- ==== Sys2Proof/Machine/Step.lean ====
section
/-! DEFINITION. One step of the machine: the whole of one command, or one reset event, or nothing when the host
presents nothing (R10, R201). -/

namespace Sys2Proof.Machine

/-- Take what the host presents. A command word is decoded and executed, or raises `IllegalCommand`; the command
is already taken from the port when it runs, and no command looks at the port. -/
def step (s : State) : Host.Outcome State Fault Refusal :=
  match s.takeEvent with
  | none => .next s.idle
  | some (.reset, s') => .next s'.resetEvent
  | some (.command cmd, s') =>
    match decode cmd with
    | .ok i => exec i s'
    | .error _ => .next s'.raiseIllegalCommand

/-- The state in which the host presents that word next, before whatever it has presented already (log 7). -/
def State.withFetchWord (s : State) (nbits w : Nat) : State :=
  { s with port := .command (commandWord nbits w) :: s.port }

end Sys2Proof.Machine
end

