-- ==== Sys2Proof/Machine/Assembler.lean ====
section
/-! DEFINITION. The text of an assembler line (`30_encoding.md` R70, R71): `MNEMONIC operands ; comment`, with
numbers in decimal, after `0x` in hexadecimal or after `0b` in binary, operands separated by commas, and the
named modes as operands of the alarm packers. What is expected of a command (`-> value`, `RB = [...]`) may follow
it and is no part of it. What spaces are allowed is log 21. -/

namespace Sys2Proof

/-- The spelling of each mnemonic (R64). -/
def Mnemonic.text : Mnemonic → String
  | .bcd2bin => "BCD2BIN"
  | .bin2bcd => "BIN2BCD"
  | .getsec => "GETSEC"
  | .getmin => "GETMIN"
  | .gethour => "GETHOUR"
  | .getdow => "GETDOW"
  | .getdom => "GETDOM"
  | .getmon => "GETMON"
  | .getyear => "GETYEAR"
  | .setsec => "SETSEC"
  | .setmin => "SETMIN"
  | .sethour => "SETHOUR"
  | .setdow => "SETDOW"
  | .setdom => "SETDOM"
  | .setmon => "SETMON"
  | .setyear => "SETYEAR"
  | .rbload => "RBLOAD"
  | .rbdump => "RBDUMP"
  | .caldec => "CALDEC"
  | .calenc => "CALENC"
  | .cal2ep => "CAL2EP"
  | .ep2cal => "EP2CAL"
  | .alm1pk => "ALM1PK"
  | .alm2pk => "ALM2PK"

/-- The spelling of each named mode (R71, R161). -/
def NamedMode.text : NamedMode → String
  | .everySecond => "EVERY_SECOND"
  | .everyMinute => "EVERY_MINUTE"
  | .everyHour => "EVERY_HOUR"
  | .everyDay => "EVERY_DAY"
  | .everyWeek => "EVERY_WEEK"
  | .everyMonth => "EVERY_MONTH"

/-- Why a line of text spells no command. -/
inductive LineError where
  | unknownMnemonic
  | badOperand
  | badLine (e : AsmError)
  deriving DecidableEq, Repr

def isBlank (c : Char) : Bool := c == ' ' || c == '\t'

/-- The text without blanks at either end. -/
def trimBlanks (t : List Char) : List Char := ((t.dropWhile isBlank).reverse.dropWhile isBlank).reverse

/-- The text before the first place where `mark` stands; all of it if it stands nowhere. -/
def beforeMark (mark : List Char) : List Char → List Char
  | [] => []
  | c :: rest => if mark.isPrefixOf (c :: rest) then [] else c :: beforeMark mark rest

/-- The pieces between commas; one piece if there is no comma. -/
def commaPieces : List Char → List (List Char)
  | [] => [[]]
  | c :: rest =>
    if c == ',' then [] :: commaPieces rest
    else match commaPieces rest with
      | [] => [[c]]
      | p :: ps => (c :: p) :: ps

/-- The digits of the three bases of R70, each at the place of its value. -/
def digitRow : List Char := "0123456789abcdef".toList

/-- The value of a digit, of either case (log 21); none for another character. -/
def digitValue (c : Char) : Option Nat := digitRow.findIdx? fun digit => digit == c.toLower

/-- Read digits in a base, the most significant first, after the value `acc`. -/
def readDigits (base acc : Nat) : List Char → Option Nat
  | [] => some acc
  | c :: rest =>
    match digitValue c with
    | some d => if d < base then readDigits base (acc * base + d) rest else none
    | none => none

/-- "Numbers are decimal, or hexadecimal with `0x`, or binary with `0b`" (R70). -/
def readNumber : List Char → Option Nat
  | [] => none
  | '0' :: 'x' :: c :: rest => readDigits 16 0 (c :: rest)
  | '0' :: 'b' :: c :: rest => readDigits 2 0 (c :: rest)
  | t => readDigits 10 0 t

def Mnemonic.all : List Mnemonic := opcodeTable.map OpcodeRow.mnemonic

def NamedMode.all : List NamedMode :=
  [.everySecond, .everyMinute, .everyHour, .everyDay, .everyWeek, .everyMonth]

/-- One operand: a number, or for an alarm packer the name of a mode (R70, R71). -/
def readOperand (f : PayloadFormat) (t : List Char) : Option Nat :=
  match NamedMode.all.find? (fun n => n.text.toList == t) with
  | some n => if f = .m then some n.value.toNat else none
  | none => readNumber t

/-- The operands after a mnemonic. -/
def readOperands (f : PayloadFormat) (t : List Char) : Option (List Nat) :=
  if t = [] then some [] else (commaPieces t).mapM fun p => readOperand f (trimBlanks p)

/-- The command a line of text spells; none for a line with no command on it (R70). -/
def readLine (line : List Char) : Except LineError (Option Instr) :=
  let code := trimBlanks (beforeMark " RB = ".toList (beforeMark "->".toList (beforeMark ";".toList line)))
  let word := code.takeWhile fun c => !isBlank c
  if word = [] then .ok none
  else match Mnemonic.all.find? (fun m => m.text.toList == word) with
    | none => .error .unknownMnemonic
    | some m =>
      match readOperands m.format (trimBlanks (code.dropWhile fun c => !isBlank c)) with
      | none => .error .badOperand
      | some ops =>
        match assemble ⟨m, ops⟩ with
        | .error e => .error (.badLine e)
        | .ok i => .ok (some i)

end Sys2Proof
end

