-- ==== Sys2Proof/Safety.lean ====
section
/-! DEFINITION. The terms claims are stated in: which bytes a command reads and writes (`10_state.md` R23), what a
well-formed response is (`30_encoding.md` R66, R67), the in-contract invariant, and a calendar of reference that
owes nothing to the block's own arithmetic (`43_epoch_converter.md` R146 (c), R156 (e)). Nothing here is called by
the machine. -/

namespace Sys2Proof

open Machine

/-! ### What a command touches -/

/-- The bytes of the Register Buffer a command reads (R23). -/
def Instr.reads : Instr → List RegField
  | .bcd2bin _ | .bin2bcd _ | .cal2ep _ => []
  | .getsec => [.sec]
  | .getmin => [.min]
  | .gethour => [.hour]
  | .getdow => [.dow]
  | .getdom => [.dom]
  | .getmon => [.mon]
  | .getyear => [.year]
  | .setsec _ | .setmin _ | .sethour _ | .setdow _ | .setdom _ | .setmon _ | .setyear _ => []
  | .rbload _ | .calenc _ | .ep2cal _ => []
  | .rbdump | .caldec => RegField.all
  | .alm1pk mode => [.sec, .min, .hour, if mode.getLsbD 4 then .dow else .dom]
  | .alm2pk mode => [.min, .hour, if mode.getLsbD 4 then .dow else .dom]

/-- The bytes of the Register Buffer a command writes (R23). -/
def Instr.writes : Instr → List RegField
  | .setsec _ => [.sec]
  | .setmin _ => [.min]
  | .sethour _ => [.hour]
  | .setdow _ => [.dow]
  | .setdom _ => [.dom]
  | .setmon _ => [.mon]
  | .setyear _ => [.year]
  | .rbload _ | .calenc _ | .ep2cal _ => RegField.all
  | .bcd2bin _ | .bin2bcd _ | .cal2ep _ | .rbdump | .caldec | .alm1pk _ | .alm2pk _ => []
  | .getsec | .getmin | .gethour | .getdow | .getdom | .getmon | .getyear => []

/-! ### The rules' own arithmetic, on numbers

Claims are stated with these, not with the machine's functions, so that a wrong digit there would refute them. -/

/-- `b[7:4] * 10 + b[3:0]` (R100). -/
def bcdValue (b : Byte) : Nat := b.toNat / 16 * 10 + b.toNat % 16

/-- `{ (v div 10)[3:0], (v mod 10)[3:0] }` (R101). -/
def bcdCode (v : Nat) : Byte := BitVec.ofNat 8 (v / 10 % 16 * 16 + v % 10)

/-- The number whose byte lanes, from the lowest, are `bytes` (R42). -/
def laneNumber : List Nat → Nat
  | [] => 0
  | b :: rest => b + 256 * laneNumber rest

/-- The CalendarValue layout as a number (R62). -/
def calendarNumber (year month dom hour minute second dow : Nat) : Nat :=
  year + 2 ^ 16 * laneNumber [month, dom, hour, minute, second, dow]

/-- The cumulative-days table for any month (R141). -/
def cumTable (m : Nat) : Nat := [0, 0, 31, 59, 90, 120, 151, 181, 212, 243, 273, 304, 334].getD m 0

/-- The words with opcode `op` spell a command exactly when the payload bits from bit `bits` up are 0, and then
they spell `mk payload`; any other word with that opcode raises `IllegalCommand` when it is presented (R60, R61,
R68, R180). -/
def WordsSpell (op : Opcode) (bits : Nat) (mk : Payload → Instr) : Prop :=
  ∀ cmd : CommandWord, opcodeOf cmd = op →
    ((payloadOf cmd).toNat < 2 ^ bits → decode cmd = .ok (mk (payloadOf cmd))) ∧
    (2 ^ bits ≤ (payloadOf cmd).toNat → ∀ (s : State) (rest : List PortEvent), s.port = .command cmd :: rest →
      step s = .next { s with port := rest, response := some ⟨.illegal, 0, 0, 0⟩ })

/-- Every word with opcode `op` spells a command, whatever its payload (R62). -/
def EveryWordSpells (op : Opcode) (mk : Payload → Instr) : Prop :=
  ∀ cmd : CommandWord, opcodeOf cmd = op → decode cmd = .ok (mk (payloadOf cmd))

/-- The word matches no row of the opcode map (R65, R68). -/
def SpellsNoCommand (cmd : CommandWord) : Prop := ∀ r ∈ opcodeTable, cmd &&& r.mask ≠ r.pattern

/-! ### Runs -/

/-- The buffer a command leaves when it finds the buffer `t` (R10, R50). -/
def bufferAfter (t : RawTime) (i : Instr) : RawTime :=
  match exec i { State.reset with rb := t } with
  | .next s => s.rb
  | .fault _ => t
  | .refused _ => t

/-! ### Responses -/

/-- The label of a response's chip bytes: none, or one of the three byte groups of R41. -/
def Machine.Response.labelOk (r : Response) : Bool :=
  (r.busAddr == 0x00 && r.busCount == 0) || (r.busAddr == 0x00 && r.busCount == 7) ||
    (r.busAddr == 0x07 && r.busCount == 4) || (r.busAddr == 0x0B && r.busCount == 3)

/-- A response as R66 and R67 allow it: one of the labels; where there are chip bytes, `data` holds no bit above
them; and an `ILLEGAL` response is all zero. -/
def Machine.Response.wellFormed (r : Response) : Bool :=
  r.labelOk && (r.busCount == 0 || r.data.toNat < 2 ^ (8 * r.busCount.toNat)) &&
    (r.status == .ok || (r.data == 0 && r.busAddr == 0 && r.busCount == 0))

/-- The response in the state, if there is one, is well formed. -/
def ResponseInvariant (s : State) : Prop := ∀ r, s.response = some r → r.wellFormed = true

/-! ### Runs whose host keeps the contract -/

/-- What the host presents keeps the contract: a word that spells a command has its operands in contract. -/
def eventInContract : PortEvent → Bool
  | .reset => true
  | .command cmd =>
    match decode cmd with
    | .ok i => i.inContract
    | .error _ => true

/-- Every byte of the buffer is packed BCD within its field's bound, and all the host presents is in contract. -/
def InContract (s : State) : Prop := s.rb.bounded = true ∧ ∀ e ∈ s.port, eventInContract e = true

/-! ### A calendar of reference -/

/-- The Gregorian leap rule, century exception included. -/
def gregorianLeap (y : Nat) : Bool := y % 4 == 0 && (y % 100 != 0 || y % 400 == 0)

/-- Days of a Gregorian month; 0 for no month. -/
def gregorianMonthDays (y m : Nat) : Nat :=
  match m with
  | 1 | 3 | 5 | 7 | 8 | 10 | 12 => 31
  | 4 | 6 | 9 | 11 => 30
  | 2 => if gregorianLeap y then 29 else 28
  | _ => 0

/-- Days of the first `m` months of a year, counted month by month. -/
def gregorianDaysOfMonths (y : Nat) : Nat → Nat
  | 0 => 0
  | m + 1 => gregorianDaysOfMonths y m + gregorianMonthDays y (m + 1)

/-- Days from 1970-01-01 to 1 January of year `1970 + n`, counted year by year. -/
def gregorianDaysOfYears : Nat → Nat
  | 0 => 0
  | n + 1 => gregorianDaysOfYears n + (if gregorianLeap (1970 + n) then 366 else 365)

/-- Seconds from 1970-01-01T00:00:00 to a date and time, without leap seconds. -/
def gregorianSeconds (y m d hour minute second : Nat) : Nat :=
  (gregorianDaysOfYears (y - 1970) + gregorianDaysOfMonths y (m - 1) + (d - 1)) * 86400
    + hour * 3600 + minute * 60 + second

/-- The date exists in the Gregorian calendar, in 2000 to 2099, and the time is a time of day. -/
def gregorianValid (y m d hour minute second : Nat) : Bool :=
  2000 ≤ y && y ≤ 2099 && 1 ≤ m && m ≤ 12 && 1 ≤ d && d ≤ gregorianMonthDays y m &&
    hour ≤ 23 && minute ≤ 59 && second ≤ 59

/-- The days of the week. -/
inductive Weekday where
  | tuesday | wednesday | thursday | friday | saturday | sunday | monday
  deriving DecidableEq, Repr

/-- The weekday the block's numbers name (R154, C2). -/
def weekdayOfNumber : Nat → Option Weekday
  | 0 => some .tuesday
  | 1 => some .wednesday
  | 2 => some .thursday
  | 3 => some .friday
  | 4 => some .saturday
  | 5 => some .sunday
  | 6 => some .monday
  | _ => none

/-- The day after a weekday. -/
def Weekday.tomorrow : Weekday → Weekday
  | .monday => .tuesday
  | .tuesday => .wednesday
  | .wednesday => .thursday
  | .thursday => .friday
  | .friday => .saturday
  | .saturday => .sunday
  | .sunday => .monday

end Sys2Proof
end

