-- ==== Sys2Proof/Certificates/Slice0/Obligations.lean ====
section
/-! DEFINITION. What is to be proved of the machine. Each statement's docstring names the rule of `spec/` it
follows. Where a rule is the spec's own decision (D<n>) the docstring says so; where a clause is the model's
choice it names the log entry. Throughout, `response` is where the model keeps the response of R66 (log 2) and `port`
holds what the host presents (log 1); `rb` is the block's own state (R20). -/

open Sys2Proof Sys2Proof.Machine

/-! ### Reset and the command port -/

/-- R25 (decision D12): after reset every byte is 0x00, and the content decodes to (2000, 0, 0, 0, 0, 0, 0). -/
def Obligations.ResetBufferIsZero : Prop :=
  (∀ f, readByte State.reset.rb f = 0x00) ∧
  exec .caldec State.reset = .next { State.reset with response := some ⟨.ok, 2000, 0, 0⟩ }

/-- R201 (decision D27): the reset event is one step that zeroes the buffer, whatever it held. That the port keeps
what stands after the event and the response is gone is the model's choice (log 4). -/
def Obligations.ResetEventZeroesBuffer : Prop :=
  ∀ (s : State) (rest : List PortEvent), s.port = .reset :: rest →
    step s = .next { rb := ⟨0, 0, 0, 0, 0, 0, 0⟩, port := rest, response := none }

/-- The model's choice (log 3): with nothing presented, nothing happens. -/
def Obligations.IdleStepChangesNothing : Prop :=
  ∀ s : State, s.port = [] → step s = .next s

/-- A step runs the command the presented word decodes to, with the word taken from the port (log 1). -/
def Obligations.StepRunsDecodedCommand : Prop :=
  ∀ (s : State) (cmd : CommandWord) (rest : List PortEvent) (i : Instr),
    s.port = .command cmd :: rest → decode cmd = .ok i → step s = exec i { s with port := rest }

/-- Presenting the word that spells `i` makes the next step run exactly `i` (log 7). -/
def Obligations.PresentedCommandRuns : Prop :=
  ∀ (i : Instr) (s : State), step (s.withFetchWord 72 (encode i).toNat) = exec i s

/-- R10 (decision D1): a command step always ends in one next state with one response; only the host's word
leaves the port. -/
def Obligations.CommandStepIsTotal : Prop :=
  ∀ (s : State) (cmd : CommandWord) (rest : List PortEvent), s.port = .command cmd :: rest →
    ∃ s' r, step s = .next s' ∧ s'.port = rest ∧ s'.response = some r ∧
      (r.status = .ok ↔ ¬ SpellsNoCommand cmd)

/-- No run of the machine stops, from any state. R182 says of commands that none leaves a state in which later ones
do not work. That a run goes on past the last presented event, by the idle step, is the model's choice (log 3), and
so is that the machine has no fault at all (log 5). -/
def Obligations.RunsNeverStop : Prop :=
  ∀ (n : Nat) (s : State), ∃ s', Host.Core.run core n s = .next s'

/-- R50 (decision D24): commands run in the order in which they are presented, each on the buffer the one before
it left, and on nothing else of the state. -/
def Obligations.RunExecutesCommandsInOrder : Prop :=
  ∀ (cmds : List Instr) (rest : List PortEvent) (s : State),
    s.port = cmds.map (fun i => PortEvent.command (encode i)) ++ rest →
      ∃ s', Host.Core.run core cmds.length s = .next s' ∧ s'.port = rest ∧ s'.rb = cmds.foldl bufferAfter s.rb

/-! ### The one exception -/

/-- R180 (decision D4): `IllegalCommand`. Its cause, its whole effect, and which commands can raise it. -/
def Obligations.IllegalWordRaisesIllegalCommand : Prop :=
  Status.bit .illegal = 1 ∧ Status.bit .ok = 0 ∧
  (∀ (s : State) (cmd : CommandWord) (rest : List PortEvent),
    s.port = .command cmd :: rest → SpellsNoCommand cmd →
      step s = .next { s with port := rest, response := some ⟨.illegal, 0, 0, 0⟩ }) ∧
  (∀ m : Mnemonic, (∃ cmd, opcodeOf cmd = m.opcode ∧ SpellsNoCommand cmd) ↔ m ≠ .calenc ∧ m ≠ .cal2ep) ∧
  (∀ cmd, (∀ m : Mnemonic, opcodeOf cmd ≠ m.opcode) → SpellsNoCommand cmd)

/-- R187 (decision D4): the command after an illegal one is executed normally on the unchanged buffer, and a second
illegal word finds no "in handler" condition: it ends as the first did. -/
def Obligations.CommandAfterIllegalRunsNormally : Prop :=
  ∀ (s : State) (bad cmd : CommandWord) (rest : List PortEvent),
    s.port = .command bad :: .command cmd :: rest → SpellsNoCommand bad →
      ∃ s1, step s = .next s1 ∧ s1.rb = s.rb ∧
        (∀ i, decode cmd = .ok i → step s1 = exec i { s1 with port := rest }) ∧
        (SpellsNoCommand cmd → step s1 = .next { s1 with port := rest })

/-! ### Encoding -/

/-- One word of each family, from the opcode map and the worked examples. -/
def Obligations.WrittenOutWordsDecode : Prop :=
  decode 0x010000000000000059 = .ok (.bcd2bin 0x59) ∧
  decode 0x160000000000000000 = .ok .getyear ∧
  decode 0x2600000000000007E8 = .ok (.setyear 2024) ∧
  decode 0x300024022904235958 = .ok (.rbload ⟨0x58, 0x59, 0x23, 0x04, 0x29, 0x02, 0x24⟩) ∧
  decode 0x41043A3B171D0207E8 = .ok (.calenc ⟨2024, 2, 29, 23, 59, 58, 4⟩) ∧
  decode 0x510000000065DFC900 = .ok (.ep2cal 1709164800) ∧
  decode 0x610000000000000010 = .ok (.alm2pk 16)

/-- Every command survives encoding and decoding, with every operand at every value. -/
def Obligations.DecodeOfEncode : Prop := ∀ i : Instr, decode (encode i) = .ok i

/-- "Every legal word has exactly one spelling" (R65): a word that decodes is the encoding of what it decodes to. -/
def Obligations.EncodeOfDecode : Prop :=
  ∀ (cmd : CommandWord) (i : Instr), decode cmd = .ok i → encode i = cmd

/-- R65 (decision D4): the decoder answers the command of the row the word matches, with its fields, and rejects
a word that matches none; at most one row matches. -/
def Obligations.DecoderFollowsOpcodeMap : Prop :=
  ∀ cmd : CommandWord,
    (∀ r ∈ opcodeTable, cmd &&& r.mask = r.pattern →
      ∃ i, decode cmd = .ok i ∧ i.mnemonic = r.mnemonic ∧ i.payload = payloadOf cmd) ∧
    (SpellsNoCommand cmd → ∃ why, decode cmd = .error why) ∧
    (∀ r ∈ opcodeTable, ∀ q ∈ opcodeTable,
      cmd &&& r.mask = r.pattern → cmd &&& q.mask = q.pattern → r = q)

/-- R68 (a) and (b): the two ways a word is illegal. That the decoder names a reason, and which, is the model's
choice (log 16): R185 makes both one condition, and no response shows the reason. -/
def Obligations.IllegalReasons : Prop :=
  ∀ cmd : CommandWord,
    (decode cmd = .error (.unassignedOpcode (opcodeOf cmd)) ↔ ∀ m : Mnemonic, m.opcode ≠ opcodeOf cmd) ∧
    (decode cmd = .error (.reservedBitSet (opcodeOf cmd)) ↔
      ∃ m : Mnemonic, m.opcode = opcodeOf cmd ∧ 2 ^ m.format.operandWidths.sum ≤ (payloadOf cmd).toNat)

/-- R70: the line that spells a command, with its operands in the order of R70, assembles to that command. -/
def Obligations.AssembleOfLine : Prop := ∀ i : Instr, assemble i.toAsm = .ok i

/-- R71 (decision D22): the six-operand forms and the six named modes. -/
def Obligations.PseudoFormsExpand : Prop :=
  (∀ y mo d h mi sec : Nat,
    assemble ⟨.cal2ep, [y, mo, d, h, mi, sec]⟩ = assemble ⟨.cal2ep, [y, mo, d, h, mi, sec, 0]⟩ ∧
    assemble ⟨.calenc, [y, mo, d, h, mi, sec]⟩ = assemble ⟨.calenc, [y, mo, d, h, mi, sec, 0]⟩) ∧
  NamedMode.value .everySecond = 15 ∧ NamedMode.value .everyMinute = 14 ∧ NamedMode.value .everyHour = 12 ∧
  NamedMode.value .everyDay = 8 ∧ NamedMode.value .everyWeek = 16 ∧ NamedMode.value .everyMonth = 0

/-! ### BCD codec -/

/-- R100, R102: `BCD2BIN` answers tens times ten plus units for every byte, and changes nothing else. -/
def Obligations.Bcd2binAnswersBinary : Prop :=
  (∀ (b : Byte) (s : State),
    exec (.bcd2bin b) s = .next { s with response := some ⟨.ok, BitVec.ofNat 64 (bcdValue b), 0, 0⟩ }) ∧
  WordsSpell 0x01 8 (fun p => .bcd2bin (p.setWidth 8))

/-- R101, R103 (decision D10): `BIN2BCD` answers the packed digits, the tens narrowed to four bits. -/
def Obligations.Bin2bcdAnswersPackedBcd : Prop :=
  (∀ (v : Byte) (s : State),
    exec (.bin2bcd v) s = .next { s with response := some ⟨.ok, (bcdCode v.toNat).setWidth 64, 0, 0⟩ }) ∧
  WordsSpell 0x02 8 (fun p => .bin2bcd (p.setWidth 8))

/-- R104: the laws of the codec, clause by clause. -/
def Obligations.CodecRoundTrips : Prop :=
  (∀ v : Byte, v.toNat ≤ 159 → bcdToBinary (binaryToBcd v) = v) ∧
  (∀ v : Byte, 160 ≤ v.toNat → bcdToBinary (binaryToBcd v) = v - 160) ∧
  (∀ b : Byte, b.toNat / 16 ≤ 9 → b.toNat % 16 ≤ 9 → binaryToBcd (bcdToBinary b) = b)

/-! ### Register Buffer -/

/-- R110 to R116: every getter answers the binary value of its whole byte and changes nothing else. -/
def Obligations.GettersAnswerBinaryUnits : Prop :=
  (∀ s : State,
    exec .getsec s = .next { s with response := some ⟨.ok, BitVec.ofNat 64 (bcdValue s.rb.sec), 0, 0⟩ } ∧
    exec .getmin s = .next { s with response := some ⟨.ok, BitVec.ofNat 64 (bcdValue s.rb.min), 0, 0⟩ } ∧
    exec .gethour s = .next { s with response := some ⟨.ok, BitVec.ofNat 64 (bcdValue s.rb.hour), 0, 0⟩ } ∧
    exec .getdow s = .next { s with response := some ⟨.ok, BitVec.ofNat 64 (bcdValue s.rb.dow), 0, 0⟩ } ∧
    exec .getdom s = .next { s with response := some ⟨.ok, BitVec.ofNat 64 (bcdValue s.rb.dom), 0, 0⟩ } ∧
    exec .getmon s = .next { s with response := some ⟨.ok, BitVec.ofNat 64 (bcdValue s.rb.mon), 0, 0⟩ } ∧
    exec .getyear s = .next { s with response := some ⟨.ok, BitVec.ofNat 64 (bcdValue s.rb.year), 0, 0⟩ }) ∧
  WordsSpell 0x10 0 (fun _ => .getsec) ∧ WordsSpell 0x11 0 (fun _ => .getmin) ∧
  WordsSpell 0x12 0 (fun _ => .gethour) ∧ WordsSpell 0x13 0 (fun _ => .getdow) ∧
  WordsSpell 0x14 0 (fun _ => .getdom) ∧ WordsSpell 0x15 0 (fun _ => .getmon) ∧
  WordsSpell 0x16 0 (fun _ => .getyear)

/-- R117 to R122: every byte-wide setter stores the packed digits of its operand in its own byte, for every
operand, and leaves the other six bytes alone. -/
def Obligations.SettersStoreOneByte : Prop :=
  (∀ (v : Byte) (s : State),
    exec (.setsec v) s =
      .next { s with rb := { s.rb with sec := bcdCode v.toNat }, response := some ⟨.ok, 0, 0, 0⟩ } ∧
    exec (.setmin v) s =
      .next { s with rb := { s.rb with min := bcdCode v.toNat }, response := some ⟨.ok, 0, 0, 0⟩ } ∧
    exec (.sethour v) s =
      .next { s with rb := { s.rb with hour := bcdCode v.toNat }, response := some ⟨.ok, 0, 0, 0⟩ } ∧
    exec (.setdow v) s =
      .next { s with rb := { s.rb with dow := bcdCode v.toNat }, response := some ⟨.ok, 0, 0, 0⟩ } ∧
    exec (.setdom v) s =
      .next { s with rb := { s.rb with dom := bcdCode v.toNat }, response := some ⟨.ok, 0, 0, 0⟩ } ∧
    exec (.setmon v) s =
      .next { s with rb := { s.rb with mon := bcdCode v.toNat }, response := some ⟨.ok, 0, 0, 0⟩ }) ∧
  WordsSpell 0x20 8 (fun p => .setsec (p.setWidth 8)) ∧ WordsSpell 0x21 8 (fun p => .setmin (p.setWidth 8)) ∧
  WordsSpell 0x22 8 (fun p => .sethour (p.setWidth 8)) ∧ WordsSpell 0x23 8 (fun p => .setdow (p.setWidth 8)) ∧
  WordsSpell 0x24 8 (fun p => .setdom (p.setWidth 8)) ∧ WordsSpell 0x25 8 (fun p => .setmon (p.setWidth 8))

/-- R123 (decision D9): `SETYEAR` normalises a year of 2000 or more, keeps the low 8 bits, and stores the packed
digits in the year byte alone. -/
def Obligations.SetyearNormalisesAndStores : Prop :=
  (∀ (h : Year) (s : State),
    let y := if 2000 ≤ h.toNat then h.toNat - 2000 else h.toNat
    exec (.setyear h) s =
      .next { s with rb := { s.rb with year := bcdCode (y % 256) }, response := some ⟨.ok, 0, 0, 0⟩ }) ∧
  WordsSpell 0x26 16 (fun p => .setyear (p.setWidth 16))

/-- R124: `RBLOAD` stores the seven bytes as given, the lowest lane in the seconds byte. -/
def Obligations.RbloadStoresBytesAsGiven : Prop :=
  (∀ (raw : RawTime) (s : State),
    exec (.rbload raw) s = .next { s with rb := raw, response := some ⟨.ok, 0, 0, 0⟩ }) ∧
  WordsSpell 0x30 56 (fun p => .rbload ⟨p.extractLsb' 0 8, p.extractLsb' 8 8, p.extractLsb' 16 8,
    p.extractLsb' 24 8, p.extractLsb' 32 8, p.extractLsb' 40 8, p.extractLsb' 48 8⟩)

/-- R125 (decision D25): `RBDUMP` hands over the seven bytes for chip address 0x00. -/
def Obligations.RbdumpHandsOverBytes : Prop :=
  (∀ s : State,
    exec .rbdump s = .next { s with response := some ⟨.ok, BitVec.ofNat 64 (laneNumber [s.rb.sec.toNat,
      s.rb.min.toNat, s.rb.hour.toNat, s.rb.dow.toNat, s.rb.dom.toNat, s.rb.mon.toNat, s.rb.year.toNat]),
      0x00, 7⟩ }) ∧
  WordsSpell 0x31 0 (fun _ => .rbdump)

/-- R126: after a byte-wide setter its getter returns the operand, less 160 from 160 up. -/
def Obligations.GetterAfterSetter : Prop :=
  ∀ (v : Byte) (s : State),
    let back : Nat := if v.toNat ≤ 159 then v.toNat else v.toNat - 160
    let answers := fun (set get : Instr) =>
      ∃ s1, exec set s = .next s1 ∧
        exec get s1 = .next { s1 with response := some ⟨.ok, BitVec.ofNat 64 back, 0, 0⟩ }
    answers (.setsec v) .getsec ∧ answers (.setmin v) .getmin ∧ answers (.sethour v) .gethour ∧
    answers (.setdow v) .getdow ∧ answers (.setdom v) .getdom ∧ answers (.setmon v) .getmon

/-- R126: after `SETYEAR h` the year getter returns `h` for 0 to 159 and `h - 2000` for 2000 to 2159. -/
def Obligations.GetyearAfterSetyear : Prop :=
  ∀ (h : Year) (s : State), (h.toNat ≤ 159 ∨ 2000 ≤ h.toNat ∧ h.toNat ≤ 2159) →
    let back : Nat := if h.toNat ≤ 159 then h.toNat else h.toNat - 2000
    ∃ s1, exec (.setyear h) s = .next s1 ∧
      exec .getyear s1 = .next { s1 with response := some ⟨.ok, BitVec.ofNat 64 back, 0, 0⟩ }

/-- R126, R41, R42: what `RBDUMP` hands over after `RBLOAD` is, chip address by chip address, what was loaded. -/
def Obligations.DumpAfterLoadReturnsBytes : Prop :=
  ∀ (raw : RawTime) (s : State), ∃ s1 s2 r,
    exec (.rbload raw) s = .next s1 ∧ exec .rbdump s1 = .next s2 ∧ s2.response = some r ∧
    r.chipCells = [(0x00, raw.sec), (0x01, raw.min), (0x02, raw.hour), (0x03, raw.dow), (0x04, raw.dom),
      (0x05, raw.mon), (0x06, raw.year)]

/-- R22: every content of the buffer is reached in one step from any state. -/
def Obligations.EveryContentReachable : Prop :=
  ∀ (t : RawTime) (s : State), ∃ cmd s', step (s.withFetchWord 72 cmd) = .next s' ∧ s'.rb = t

/-! ### Calendar codec -/

/-- R130: `CALDEC` answers the decoded fields, 2000 added to the year, in the layout of R62. -/
def Obligations.CaldecAnswersCalendar : Prop :=
  (∀ s : State,
    exec .caldec s = .next { s with response := some ⟨.ok, BitVec.ofNat 64 (calendarNumber
      (2000 + bcdValue s.rb.year) (bcdValue s.rb.mon) (bcdValue s.rb.dom) (bcdValue s.rb.hour)
      (bcdValue s.rb.min) (bcdValue s.rb.sec) (bcdValue s.rb.dow)), 0, 0⟩ }) ∧
  WordsSpell 0x40 0 (fun _ => .caldec)

/-- R131 (decision D9): `CALENC` stores every field's packed digits, valid or not; every payload is legal. -/
def Obligations.CalencStoresCalendar : Prop :=
  (∀ (c : CalendarValue) (s : State),
    let y := if 2000 ≤ c.year.toNat then c.year.toNat - 2000 else c.year.toNat
    exec (.calenc c) s = .next { s with
      rb := ⟨bcdCode c.second.toNat, bcdCode c.minute.toNat, bcdCode c.hour.toNat, bcdCode c.dow.toNat,
        bcdCode c.dom.toNat, bcdCode c.month.toNat, bcdCode (y % 256)⟩,
      response := some ⟨.ok, 0, 0, 0⟩ }) ∧
  EveryWordSpells 0x41 (fun p => .calenc ⟨p.extractLsb' 0 16, p.extractLsb' 16 8, p.extractLsb' 24 8,
    p.extractLsb' 32 8, p.extractLsb' 40 8, p.extractLsb' 48 8, p.extractLsb' 56 8⟩)

/-- R132 (a), (b): a calendar with fields to 99 and a year in contract comes back, the year as an absolute one. -/
def Obligations.CaldecAfterCalenc : Prop :=
  ∀ (c : CalendarValue) (s : State),
    (c.year.toNat ≤ 99 ∨ 2000 ≤ c.year.toNat ∧ c.year.toNat ≤ 2099) →
    c.month.toNat ≤ 99 → c.dom.toNat ≤ 99 → c.hour.toNat ≤ 99 → c.minute.toNat ≤ 99 → c.second.toNat ≤ 99 →
    c.dow.toNat ≤ 99 →
    ∃ s1, exec (.calenc c) s = .next s1 ∧ exec .caldec s1 = .next { s1 with response := some ⟨.ok,
      CalendarValue.pack { c with year := if c.year.toNat ≤ 99 then c.year + 2000 else c.year }, 0, 0⟩ }

/-- R132 (c): encoding what was decoded from a packed-BCD buffer leaves the buffer as it was. -/
def Obligations.CalencAfterCaldec : Prop :=
  ∀ (s : State), s.rb.isBcd = true →
    ∃ c s1 s2, exec .caldec s = .next s1 ∧ s1.response = some ⟨.ok, CalendarValue.pack c, 0, 0⟩ ∧
      exec (.calenc c) s1 = .next s2 ∧ s2.rb = s.rb

/-- R132 (d): `CALDEC` answers the seven getters' values, its year 2000 more than `GETYEAR`'s. -/
def Obligations.CaldecAgreesWithGetters : Prop :=
  ∀ s : State, ∃ c : CalendarValue,
    exec .caldec s = .next { s with response := some ⟨.ok, c.pack, 0, 0⟩ } ∧
    exec .getsec s = .next { s with response := some ⟨.ok, c.second.setWidth 64, 0, 0⟩ } ∧
    exec .getmin s = .next { s with response := some ⟨.ok, c.minute.setWidth 64, 0, 0⟩ } ∧
    exec .gethour s = .next { s with response := some ⟨.ok, c.hour.setWidth 64, 0, 0⟩ } ∧
    exec .getdow s = .next { s with response := some ⟨.ok, c.dow.setWidth 64, 0, 0⟩ } ∧
    exec .getdom s = .next { s with response := some ⟨.ok, c.dom.setWidth 64, 0, 0⟩ } ∧
    exec .getmon s = .next { s with response := some ⟨.ok, c.month.setWidth 64, 0, 0⟩ } ∧
    exec .getyear s = .next { s with response := some ⟨.ok, (c.year - 2000).setWidth 64, 0, 0⟩ }

/-! ### Epoch converter -/

/-- R144 (decision D30): the day accumulator, and where alone it is negative. -/
def Obligations.DayAccumulator : Prop :=
  ∀ c : CalendarValue,
    let y := if 2000 ≤ c.year.toNat then c.year.toNat - 2000 else c.year.toNat
    let leaps := (y + 3) / 4 + (if y % 4 = 0 ∧ 2 < c.month.toNat then 1 else 0)
    daysOf c = (y : Int) * 365 + leaps + cumTable c.month.toNat + ((c.dom.toNat : Int) - 1) ∧
    (daysOf c = -1 ↔ y = 0 ∧ c.dom.toNat = 0 ∧ (c.month.toNat = 0 ∨ c.month.toNat = 1)) ∧
    (daysOf c ≠ -1 → 0 ≤ daysOf c)

/-- R141 to R143, R145 (decisions D6, D7, D8): `CAL2EP` answers the sum of all contributions modulo 2^32, for
every operand, and neither reads nor writes the buffer. -/
def Obligations.Cal2epAnswersSeconds : Prop :=
  (∀ (c : CalendarValue) (s : State),
    let y := if 2000 ≤ c.year.toNat then c.year.toNat - 2000 else c.year.toNat
    let leaps := (y + 3) / 4 + (if y % 4 = 0 ∧ 2 < c.month.toNat then 1 else 0)
    let days : Int := (y : Int) * 365 + leaps + cumTable c.month.toNat + ((c.dom.toNat : Int) - 1)
    let total : Int := days * 86400 + c.hour.toNat * 3600 + c.minute.toNat * 60 + c.second.toNat + 946684800
    0 < total ∧
    exec (.cal2ep c) s =
      .next { s with response := some ⟨.ok, BitVec.ofNat 64 (total.toNat % 2 ^ 32), 0, 0⟩ }) ∧
  EveryWordSpells 0x50 (fun p => .cal2ep ⟨p.extractLsb' 0 16, p.extractLsb' 16 8, p.extractLsb' 24 8,
    p.extractLsb' 32 8, p.extractLsb' 40 8, p.extractLsb' 48 8, p.extractLsb' 56 8⟩)

/-- R146 (a), (b): the two values the source states, whatever the day of week. -/
def Obligations.Cal2epSourceValues : Prop :=
  ∀ (d : Byte) (s : State),
    exec (.cal2ep ⟨2000, 1, 1, 0, 0, 0, d⟩) s = .next { s with response := some ⟨.ok, 946684800, 0, 0⟩ } ∧
    exec (.cal2ep ⟨2024, 2, 29, 0, 0, 0, d⟩) s = .next { s with response := some ⟨.ok, 1709164800, 0, 0⟩ } ∧
    exec (.cal2ep ⟨2024, 3, 1, 0, 0, 0, d⟩) s =
      .next { s with response := some ⟨.ok, 1709164800 + 86400, 0, 0⟩ }

/-- R145: in contract nothing is lost to the width, and the answer lies between the reference instant and the end
of 2099. -/
def Obligations.Cal2epInContractIsExact : Prop :=
  ∀ (c : CalendarValue) (s : State), c.validDateTime = true →
    ∃ n : Nat, (n : Int) = epochTotal c ∧ 946684800 ≤ n ∧ n ≤ 4102444799 ∧
      exec (.cal2ep c) s = .next { s with response := some ⟨.ok, BitVec.ofNat 64 n, 0, 0⟩ }

/-- R145: the day of week takes no part, and a two-digit year stands for 2000 and later. -/
def Obligations.Cal2epIgnoresDowAndCentury : Prop :=
  ∀ (c : CalendarValue) (s : State),
    (∀ d : Byte, exec (.cal2ep { c with dow := d }) s = exec (.cal2ep c) s) ∧
    (c.year.toNat ≤ 99 → exec (.cal2ep { c with year := c.year + 2000 }) s = exec (.cal2ep c) s)

/-- R147 to R149, R151, R152, R154, R155 (decisions D13, D14, D15, D29): `EP2CAL` stage by stage, for every
operand. The month is the last one whose threshold is at most the day of the year. -/
def Obligations.Ep2calConverts : Prop :=
  (∀ (e : EpochSeconds) (s : State),
    (e.toNat < 946684800 →
      exec (.ep2cal e) s = .next { s with rb := ⟨0, 0, 0, 0, 0, 0, 0⟩, response := some ⟨.ok, 0, 0, 0⟩ }) ∧
    (946684800 ≤ e.toNat →
      let t := e.toNat - 946684800
      let days := t / 86400
      let rem := days % 1461
      let periods := days / 1461 + (if 60 ≤ rem then 1 else 0)
      let years := (days - periods) / 365
      let doy := days - years * 365 - periods + (if 60 ≤ rem ∧ rem ≤ 365 then 1 else 0)
      let thr := fun m => cumTable m + (if years % 4 = 0 ∧ 3 ≤ m then 1 else 0)
      ∃ month, 1 ≤ month ∧ month ≤ 12 ∧ thr month ≤ doy ∧ (∀ m, month < m → m ≤ 12 → doy < thr m) ∧
        exec (.ep2cal e) s = .next { s with
          rb := ⟨bcdCode (t % 60), bcdCode (t / 60 % 60), bcdCode (t / 3600 % 24), bcdCode ((days + 4) % 7),
            bcdCode (doy - thr month + 1), bcdCode month, bcdCode years⟩,
          response := some ⟨.ok, BitVec.ofNat 64 (calendarNumber (2000 + years) month (doy - thr month + 1)
            (t / 3600 % 24) (t / 60 % 60) (t % 60) ((days + 4) % 7)), 0, 0⟩ })) ∧
  WordsSpell 0x51 32 (fun p => .ep2cal (p.setWidth 32))

/-- R150 (decision D13), R183: the fallback is a result. Buffer and answer are all zero, `CALDEC` then reports the
year 2000, and no conversion at or past the reference answers month 0. -/
def Obligations.FallbackBeforeReference : Prop :=
  ∀ (e : EpochSeconds) (s : State),
    (e.toNat < 946684800 →
      ∃ s1, exec (.ep2cal e) s = .next s1 ∧
        s1 = { s with rb := ⟨0, 0, 0, 0, 0, 0, 0⟩, response := some ⟨.ok, 0, 0, 0⟩ } ∧
        exec .caldec s1 = .next { s1 with response := some ⟨.ok, 2000, 0, 0⟩ }) ∧
    (946684800 ≤ e.toNat →
      ∃ s1 c, exec (.ep2cal e) s = .next s1 ∧ s1.response = some ⟨.ok, CalendarValue.pack c, 0, 0⟩ ∧ c.month ≠ 0)

/-- R147, R149, R152, R154: whatever the operand from the reference up, the answer is a date with a month of 1 to
12, a day that month has by the divisible-by-4 rule, a time of day, and a weekday number of 0 to 6. -/
def Obligations.Ep2calAnswersValidDate : Prop :=
  ∀ (e : EpochSeconds) (s : State), 946684800 ≤ e.toNat →
    ∃ s1 c, exec (.ep2cal e) s = .next s1 ∧ s1.response = some ⟨.ok, CalendarValue.pack c, 0, 0⟩ ∧
      2000 ≤ c.year.toNat ∧ c.year.toNat ≤ 2106 ∧ 1 ≤ c.month.toNat ∧ c.month.toNat ≤ 12 ∧ 1 ≤ c.dom.toNat ∧
      c.dom.toNat ≤ daysInMonth c.year.toNat c.month.toNat ∧ c.hour.toNat ≤ 23 ∧ c.minute.toNat ≤ 59 ∧
      c.second.toNat ≤ 59 ∧ c.dow.toNat ≤ 6

/-- R155: the seven writes are those `CALENC` of the answer would make, in the fallback too. -/
def Obligations.Ep2calStoresAsCalenc : Prop :=
  ∀ (e : EpochSeconds) (s : State),
    ∃ s1 s2 c, exec (.ep2cal e) s = .next s1 ∧ s1.response = some ⟨.ok, CalendarValue.pack c, 0, 0⟩ ∧
      exec (.calenc c) s = .next s2 ∧ s1.rb = s2.rb

/-- R130, R155: after a conversion from the reference up, `CALDEC` answers the same calendar again. -/
def Obligations.CaldecAfterEp2cal : Prop :=
  ∀ (e : EpochSeconds) (s : State), 946684800 ≤ e.toNat →
    ∃ s1, exec (.ep2cal e) s = .next s1 ∧ exec .caldec s1 = .next s1

/-- R154: counting day by day from Saturday, 2000-01-01, the weekday number names the weekday of every day. -/
def Obligations.WeekdayCountsFromSaturday : Prop :=
  ∀ (e : EpochSeconds) (s : State), 946684800 ≤ e.toNat →
    ∃ s1 c, exec (.ep2cal e) s = .next s1 ∧ s1.response = some ⟨.ok, CalendarValue.pack c, 0, 0⟩ ∧
      weekdayOfNumber c.dow.toNat = some (Weekday.tomorrow^[(e.toNat - 946684800) / 86400] .saturday)

/-- R156 (b): for every operand from the reference up, `CAL2EP` of what `EP2CAL` answers is the operand again. -/
def Obligations.Cal2epInvertsEp2cal : Prop :=
  ∀ (e : EpochSeconds) (s : State), 946684800 ≤ e.toNat →
    ∃ s1 c, exec (.ep2cal e) s = .next s1 ∧ s1.response = some ⟨.ok, CalendarValue.pack c, 0, 0⟩ ∧
      exec (.cal2ep c) s1 = .next { s1 with response := some ⟨.ok, e.setWidth 64, 0, 0⟩ }

/-- R156 (a): for every valid calendar of 2000 to 2099, `EP2CAL` of what `CAL2EP` answers is that calendar again,
over the six fields other than the day of week (C5). -/
def Obligations.Ep2calInvertsCal2ep : Prop :=
  ∀ (c : CalendarValue) (s : State), c.validDateTime = true → 2000 ≤ c.year.toNat →
    ∃ (e : EpochSeconds) (s1 s2 : State) (d : Byte),
      exec (.cal2ep c) s = .next s1 ∧ s1.response = some ⟨.ok, e.setWidth 64, 0, 0⟩ ∧
      exec (.ep2cal e) s1 = .next s2 ∧
      s2.response = some ⟨.ok, CalendarValue.pack { c with dow := d }, 0, 0⟩

/-- R146 (c): for every Gregorian date of 2000 to 2099 and every time of day, `CAL2EP` answers the seconds counted
from 1970 year by year and month by month. -/
def Obligations.Cal2epCountsGregorianSeconds : Prop :=
  ∀ (c : CalendarValue) (s : State),
    gregorianValid c.year.toNat c.month.toNat c.dom.toNat c.hour.toNat c.minute.toNat c.second.toNat = true →
    exec (.cal2ep c) s = .next { s with response := some ⟨.ok, BitVec.ofNat 64 (gregorianSeconds c.year.toNat
      c.month.toNat c.dom.toNat c.hour.toNat c.minute.toNat c.second.toNat), 0, 0⟩ }

/-- R156 (e): for every operand in contract, `EP2CAL` answers the Gregorian date and time of the instant. -/
def Obligations.Ep2calAnswersGregorianDate : Prop :=
  ∀ (e : EpochSeconds) (s : State), 946684800 ≤ e.toNat → e.toNat ≤ 4102444799 →
    ∃ s1 c, exec (.ep2cal e) s = .next s1 ∧ s1.response = some ⟨.ok, CalendarValue.pack c, 0, 0⟩ ∧
      gregorianValid c.year.toNat c.month.toNat c.dom.toNat c.hour.toNat c.minute.toNat c.second.toNat = true ∧
      gregorianSeconds c.year.toNat c.month.toNat c.dom.toNat c.hour.toNat c.minute.toNat c.second.toNat = e.toNat

/-! ### Alarm packer -/

/-- R163, R164 (decisions D16, D18): `ALM1PK` for every mode and every buffer. -/
def Obligations.Alm1pkPacksFourBytes : Prop :=
  (∀ (mode : Mode) (s : State),
    let bit := fun k => mode.toNat / 2 ^ k % 2
    let day := if bit 4 = 1 then s.rb.dow.toNat else s.rb.dom.toNat
    exec (.alm1pk mode) s = .next { s with response := some ⟨.ok, BitVec.ofNat 64 (laneNumber
      [s.rb.sec.toNat ||| bit 0 * 128, s.rb.min.toNat ||| bit 1 * 128, s.rb.hour.toNat ||| bit 2 * 128,
        day ||| bit 3 * 128 ||| bit 4 * 64]), 0x07, 4⟩ }) ∧
  WordsSpell 0x60 5 (fun p => .alm1pk (p.setWidth 5))

/-- R163, R165 (decisions D16, D18): `ALM2PK` for every mode and every buffer. -/
def Obligations.Alm2pkPacksThreeBytes : Prop :=
  (∀ (mode : Mode) (s : State),
    let bit := fun k => mode.toNat / 2 ^ k % 2
    let day := if bit 4 = 1 then s.rb.dow.toNat else s.rb.dom.toNat
    exec (.alm2pk mode) s = .next { s with response := some ⟨.ok, BitVec.ofNat 64 (laneNumber
      [s.rb.min.toNat ||| bit 1 * 128, s.rb.hour.toNat ||| bit 2 * 128,
        day ||| bit 3 * 128 ||| bit 4 * 64]), 0x0B, 3⟩ }) ∧
  WordsSpell 0x61 5 (fun p => .alm2pk (p.setWidth 5))

/-- R41, R162 (decision D16): the bytes handed over for each alarm, with their chip addresses, bit by bit. A byte
is the buffer's but for bit 7 (and bit 6 of the day byte), where a mode bit is OR'd in. -/
def Obligations.AlarmPlacementTables : Prop :=
  ∀ (mode : Mode) (s : State),
    let isOr := fun (out src : Byte) (m7 m6 : Bool) =>
      ∀ k < 8, out.getLsbD k = (src.getLsbD k || (k == 7 && m7) || (k == 6 && m6))
    let day := if mode.getLsbD 4 then s.rb.dow else s.rb.dom
    ∃ (a0 a1 a2 a3 : Byte) (s1 s2 : State) (r1 r2 : Response),
      exec (.alm1pk mode) s = .next s1 ∧ s1.response = some r1 ∧
      r1.chipCells = [(0x07, a0), (0x08, a1), (0x09, a2), (0x0A, a3)] ∧
      exec (.alm2pk mode) s = .next s2 ∧ s2.response = some r2 ∧
      r2.chipCells = [(0x0B, a1), (0x0C, a2), (0x0D, a3)] ∧
      isOr a0 s.rb.sec (mode.getLsbD 0) false ∧ isOr a1 s.rb.min (mode.getLsbD 1) false ∧
      isOr a2 s.rb.hour (mode.getLsbD 2) false ∧ isOr a3 day (mode.getLsbD 3) (mode.getLsbD 4)

/-- R166: `EVERY_DAY` on channel 1 sets bit 7 of the day byte alone and keeps the lower seven bits of all four. -/
def Obligations.EveryDayOnChannelOne : Prop :=
  ∀ s : State, s.rb.sec.toNat < 128 → s.rb.min.toNat < 128 → s.rb.hour.toNat < 128 → s.rb.dom.toNat < 128 →
    ∃ s1 r, exec (.alm1pk (NamedMode.value .everyDay)) s = .next s1 ∧ s1.response = some r ∧
      r.chipCells = [(0x07, s.rb.sec), (0x08, s.rb.min), (0x09, s.rb.hour), (0x0A, s.rb.dom + 128)]

/-! ### Whole-machine rules -/

/-- R10, R66: every command completes on every state with `status` = `OK`, and takes nothing from the port. -/
def Obligations.EveryCommandCompletes : Prop :=
  ∀ (i : Instr) (s : State), ∃ s' r, exec i s = .next s' ∧ s'.response = some r ∧ r.status = .ok ∧
    s'.port = s.port

/-- R23, writes: a command leaves every byte it does not write, and the port, as they were. -/
def Obligations.UnwrittenBytesUnchanged : Prop :=
  ∀ (i : Instr) (s s' : State), exec i s = .next s' →
    (∀ f, f ∉ i.writes → readByte s'.rb f = readByte s.rb f) ∧ s'.port = s.port

/-- R23, reads: states that agree on the bytes a command reads get the same response and the same written bytes,
whatever else they hold. -/
def Obligations.OnlyReadBytesMatter : Prop :=
  ∀ (i : Instr) (s t : State), (∀ f ∈ i.reads, readByte s.rb f = readByte t.rb f) →
    ∃ s' t', exec i s = .next s' ∧ exec i t = .next t' ∧ s'.response = t'.response ∧
      ∀ f ∈ i.writes, readByte s'.rb f = readByte t'.rb f

/-- R47: presenting a command a second time leaves the same state and gives the same response. -/
def Obligations.CommandsAreIdempotent : Prop :=
  ∀ (i : Instr) (s s1 : State), exec i s = .next s1 → exec i s1 = .next s1

/-- The reset state meets both invariants (R25; the empty port and absent response are log 6). -/
def Obligations.ResetMeetsInvariants : Prop := InContract State.reset ∧ ResponseInvariant State.reset

/-- As long as all the host presents is in contract, every byte of the buffer stays packed BCD within its field's
bound (R21, R22), through every command, reset and illegal word. -/
def Obligations.StepKeepsContract : Prop :=
  ∀ s s' : State, InContract s → step s = .next s' → InContract s'

/-- R66, R67: every step keeps the response well formed. -/
def Obligations.StepKeepsResponseWellFormed : Prop :=
  ∀ s s' : State, ResponseInvariant s → step s = .next s' → ResponseInvariant s'
end

