-- ==== Sys2Proof/Laws/Codec.lean ====
section
/-! SUPPORT. What the two BCD functions and the year byte compute, in the numbers of `Safety.lean`: cited by
every proof about a family that stores or decodes a byte. The finite facts about one byte are decided. -/

namespace Sys2Proof.Machine

theorem bcdToBinary_toNat (b : Byte) : (bcdToBinary b).toNat = bcdValue b := by revert b; decide

theorem bcdValue_le (b : Byte) : bcdValue b ≤ 165 := by revert b; decide

theorem binaryToBcd_eq_bcdCode (v : Byte) : binaryToBcd v = bcdCode v.toNat := by revert v; decide

theorem binaryToBcd_ofNat {n : Nat} (h : n < 256) : binaryToBcd (BitVec.ofNat 8 n) = bcdCode n := by
  rw [binaryToBcd_eq_bcdCode, BitVec.toNat_ofNat, Nat.mod_eq_of_lt h]

theorem isBcdByte_binaryToBcd {v : Byte} (h : v.toNat ≤ 99) : isBcdByte (binaryToBcd v) = true := by
  revert v; decide

/-- In contract a stored byte spells its operand, so it lies in every range the operand lies in. -/
theorem isBcdIn_binaryToBcd {v : Byte} {lo hi : Nat} (h : v.toNat ≤ 99) (hlo : lo ≤ v.toNat) (hhi : v.toNat ≤ hi) :
    isBcdIn lo hi (binaryToBcd v) = true := by
  have hv : (binaryToBcd v).toNat / 16 * 10 + (binaryToBcd v).toNat % 16 = v.toNat := by
    clear hlo hhi; revert v; decide
  simp only [isBcdIn, hv, isBcdByte_binaryToBcd h, Bool.true_and, Bool.and_eq_true, decide_eq_true_eq]
  exact ⟨hlo, hhi⟩

/-- The offset year, on numbers. -/
theorem offsetYear_eq (y : Year) : offsetYear y = if 2000 ≤ y.toNat then y.toNat - 2000 else y.toNat := rfl

theorem offsetYear_of_ge {y : Year} (h : 2000 ≤ y.toNat) : offsetYear y = y.toNat - 2000 := by
  rw [offsetYear_eq, if_pos h]

theorem offsetYear_of_lt {y : Year} (h : y.toNat < 2000) : offsetYear y = y.toNat := by
  rw [offsetYear_eq, if_neg (by omega)]

theorem yearByte_eq_bcdCode (y : Year) : yearByte y = bcdCode (offsetYear y % 256) := by
  rw [yearByte, binaryToBcd_eq_bcdCode, BitVec.toNat_ofNat]

/-- The machine's byte lanes and the rules' are the same number. -/
theorem lanesToNat_eq_laneNumber (l : List Byte) : lanesToNat l = laneNumber (l.map BitVec.toNat) := by
  induction l with
  | nil => rfl
  | cons b l ih => simp [lanesToNat, laneNumber, ih]

/-- A list of bytes takes as many lanes as it has bytes. -/
theorem lanesToNat_lt (l : List Byte) : lanesToNat l < 2 ^ (8 * l.length) := by
  induction l with
  | nil => simp [lanesToNat]
  | cons b l ih =>
    have hb := b.isLt
    have hp : 2 ^ (8 * (l.length + 1)) = 2 ^ 8 * 2 ^ (8 * l.length) := by rw [← Nat.pow_add]; congr 1; omega
    rw [lanesToNat, List.length_cons, hp]
    omega

end Sys2Proof.Machine
end

