-- ==== Sys2Proof/Laws/Decode.lean ====
section
/-! SUPPORT. The fields of a command word, the payload layouts and their inverses, and what `decodeAs` and
`decode` can answer. -/

namespace Sys2Proof

/-! ### Fields of a word, as numbers -/

theorem opcodeOf_toNat (cmd : CommandWord) : (opcodeOf cmd).toNat = cmd.toNat / 2 ^ 64 := by
  have := cmd.isLt
  simp only [opcodeOf, BitVec.extractLsb'_toNat, Nat.shiftRight_eq_div_pow]; omega

theorem payloadOf_toNat (cmd : CommandWord) : (payloadOf cmd).toNat = cmd.toNat % 2 ^ 64 := by
  simp [payloadOf, BitVec.extractLsb'_toNat]

theorem byteLane_toNat (p : Payload) (k : Nat) : (byteLane p k).toNat = p.toNat / 2 ^ (8 * k) % 2 ^ 8 := by
  simp [byteLane, BitVec.extractLsb'_toNat, Nat.shiftRight_eq_div_pow]

/-- A word is its opcode and its payload (R60). -/
theorem commandWord_ext {a b : CommandWord} (ho : opcodeOf a = opcodeOf b) (hp : payloadOf a = payloadOf b) :
    a = b := by
  apply BitVec.eq_of_toNat_eq
  have h1 := congrArg BitVec.toNat ho
  have h2 := congrArg BitVec.toNat hp
  rw [opcodeOf_toNat, opcodeOf_toNat] at h1
  rw [payloadOf_toNat, payloadOf_toNat] at h2
  omega

theorem encode_toNat (i : Instr) : (encode i).toNat = i.mnemonic.opcode.toNat * 2 ^ 64 + i.payload.toNat := by
  have := i.mnemonic.opcode.isLt
  have := i.payload.isLt
  simp only [encode, BitVec.toNat_ofNat]; omega

@[simp] theorem opcodeOf_encode (i : Instr) : opcodeOf (encode i) = i.mnemonic.opcode := by
  have := i.payload.isLt
  apply BitVec.eq_of_toNat_eq; rw [opcodeOf_toNat, encode_toNat]; omega

@[simp] theorem payloadOf_encode (i : Instr) : payloadOf (encode i) = i.payload := by
  have := i.payload.isLt
  apply BitVec.eq_of_toNat_eq; rw [payloadOf_toNat, encode_toNat]; omega

/-- The host's number for a whole word is that word. -/
@[simp] theorem commandWord_toNat (cmd : CommandWord) : commandWord 72 cmd.toNat = cmd := by
  apply BitVec.eq_of_toNat_eq
  rw [commandWord, BitVec.toNat_ofNat, Nat.mod_mod, Nat.mod_eq_of_lt cmd.isLt]

/-! ### Payload layouts and their inverses -/

theorem packLanes_toNat {l : List Byte} (h : l.length ≤ 8) : (packLanes l).toNat = lanesToNat l := by
  have h1 := Machine.lanesToNat_lt l
  have h2 : 2 ^ (8 * l.length) ≤ 2 ^ 64 := Nat.pow_le_pow_right (by omega) (by omega)
  rw [packLanes, BitVec.toNat_ofNat, Nat.mod_eq_of_lt (by omega)]

theorem RawTime.pack_toNat (t : RawTime) :
    t.pack.toNat = lanesToNat [t.sec, t.min, t.hour, t.dow, t.dom, t.mon, t.year] :=
  packLanes_toNat (by decide : (7 : Nat) ≤ 8)

theorem RawTime.pack_lt (t : RawTime) : t.pack.toNat < 2 ^ 56 := by
  rw [RawTime.pack_toNat]; exact Machine.lanesToNat_lt _

theorem CalendarValue.pack_toNat (c : CalendarValue) :
    c.pack.toNat = c.year.toNat + 2 ^ 16 * lanesToNat [c.month, c.dom, c.hour, c.minute, c.second, c.dow] := by
  have h1 := c.year.isLt
  have h2 : lanesToNat [c.month, c.dom, c.hour, c.minute, c.second, c.dow] < 2 ^ 48 := Machine.lanesToNat_lt _
  rw [CalendarValue.pack, BitVec.toNat_ofNat]; omega

/-- Unpacking what was packed gives the seven bytes again. -/
@[simp] theorem rawTimeOf_pack (t : RawTime) : rawTimeOf t.pack = t := by
  have := t.sec.isLt; have := t.min.isLt; have := t.hour.isLt; have := t.dow.isLt
  have := t.dom.isLt; have := t.mon.isLt; have := t.year.isLt
  cases t
  simp only [rawTimeOf, RawTime.mk.injEq]
  refine ⟨?_, ?_, ?_, ?_, ?_, ?_, ?_⟩ <;>
  · apply BitVec.eq_of_toNat_eq
    rw [byteLane_toNat, RawTime.pack_toNat]
    simp only [lanesToNat] at *
    omega

/-- Unpacking a packed calendar gives the calendar again (R62). -/
@[simp] theorem calendarOf_pack (c : CalendarValue) : calendarOf c.pack = c := by
  have := c.year.isLt; have := c.month.isLt; have := c.dom.isLt; have := c.hour.isLt
  have := c.minute.isLt; have := c.second.isLt; have := c.dow.isLt
  cases c
  simp only [calendarOf, CalendarValue.mk.injEq]
  refine ⟨?_, ?_, ?_, ?_, ?_, ?_, ?_⟩ <;>
  · apply BitVec.eq_of_toNat_eq
    simp only [byteLane_toNat, BitVec.extractLsb'_toNat, Nat.shiftRight_eq_div_pow, CalendarValue.pack_toNat]
    simp only [lanesToNat] at *
    omega

/-- "Format `C` has no reserved bit: every 64-bit payload is a CalendarValue" (R62). -/
theorem calendarOf_inverse (p : Payload) : (calendarOf p).pack = p := by
  have := p.isLt
  apply BitVec.eq_of_toNat_eq
  rw [CalendarValue.pack_toNat]
  simp only [lanesToNat, calendarOf, byteLane_toNat, BitVec.extractLsb'_toNat, Nat.shiftRight_eq_div_pow]
  omega

theorem rawTimeOf_inverse {p : Payload} (h : p.toNat < 2 ^ 56) : (rawTimeOf p).pack = p := by
  apply BitVec.eq_of_toNat_eq
  rw [RawTime.pack_toNat]
  simp only [lanesToNat, rawTimeOf, byteLane_toNat]
  omega

theorem byteLane_zero (p : Payload) : byteLane p 0 = p.setWidth 8 := by
  apply BitVec.eq_of_toNat_eq; simp [byteLane_toNat]

theorem extractLsb'_zero (p : Payload) (n : Nat) : p.extractLsb' 0 n = p.setWidth n := by
  apply BitVec.eq_of_toNat_eq; simp [BitVec.extractLsb'_toNat]

/-- A payload that fits the operand's field is the operand, widened. -/
theorem setWidth_setWidth_of_lt {p : Payload} {n : Nat} (h : p.toNat < 2 ^ n) : (p.setWidth n).setWidth 64 = p := by
  apply BitVec.eq_of_toNat_eq
  rw [BitVec.toNat_setWidth, BitVec.toNat_setWidth, Nat.mod_eq_of_lt h, Nat.mod_eq_of_lt p.isLt]

/-! ### What the decoder can answer -/

theorem reservedClear_iff (f : PayloadFormat) (p : Payload) :
    reservedClear f p = true ↔ p.toNat < 2 ^ f.operandBits := by
  simp only [reservedClear, beq_iff_eq, ← BitVec.toNat_inj, BitVec.toNat_ushiftRight, Nat.shiftRight_eq_div_pow]
  simp [Nat.div_eq_zero_iff]

theorem decodeAs_of_lt {f : PayloadFormat} {cmd : CommandWord} (i : Instr)
    (h : (payloadOf cmd).toNat < 2 ^ f.operandBits) : decodeAs f i cmd = .ok i := by
  rw [decodeAs, if_pos ((reservedClear_iff f _).2 h)]

theorem decodeAs_of_le {f : PayloadFormat} {cmd : CommandWord} (i : Instr)
    (h : 2 ^ f.operandBits ≤ (payloadOf cmd).toNat) :
    decodeAs f i cmd = .error (.reservedBitSet (opcodeOf cmd)) := by
  rw [decodeAs, if_neg]
  rw [reservedClear_iff]; omega

theorem decodeAs_eq_ok {f : PayloadFormat} {i j : Instr} {cmd : CommandWord} (h : decodeAs f i cmd = .ok j) :
    j = i ∧ (payloadOf cmd).toNat < 2 ^ f.operandBits := by
  simp only [decodeAs] at h
  split at h
  · rename_i hr
    cases h
    exact ⟨rfl, (reservedClear_iff f _).1 hr⟩
  · cases h

/-- If the decoder answers a command, the word has the command's opcode and its reserved bits are clear. -/
theorem decode_eq_ok_cases {cmd : CommandWord} {i : Instr} (h : decode cmd = .ok i) :
    (opcodeOf cmd).toNat = i.mnemonic.opcode.toNat ∧
      (payloadOf cmd).toNat < 2 ^ i.mnemonic.format.operandBits := by
  simp only [decode] at h
  split at h
  case h_25 => cases h
  all_goals
    rename_i ho
    obtain ⟨rfl, hr⟩ := decodeAs_eq_ok h
    exact ⟨ho, hr⟩

end Sys2Proof
end

