-- ==== Sys2Proof/Laws/Epoch.lean ====
section
/-! SUPPORT. One lemma for each sub-block of the epoch converter (R141 to R152) saying all it can answer; the
proofs about `CAL2EP` and `EP2CAL` cite these. -/

namespace Sys2Proof.Machine

/-! ### Month table -/

/-- The machine's table and the rules' agree on every month of 8 bits (R141). -/
theorem cum_eq_cumTable {m : Nat} (h : m < 256) : cum m = cumTable m := by
  by_cases h12 : m ≤ 12
  · interval_cases m <;> rfl
  · rw [cum, if_neg (by omega), cumTable, List.getD_eq_default _ _ (by simp; omega)]

/-- The threshold of a month (R152). -/
theorem monthThreshold_eq (leap : Bool) (m : Nat) :
    monthThreshold leap m = cum m + (if leap = true ∧ 3 ≤ m then 1 else 0) := by
  simp [monthThreshold]

/-- The month walk answers the last candidate whose threshold is at most the day of the year (R152). -/
theorem monthWalk_spec (leap : Bool) (doy : Nat) {m : Nat} (hm : 1 ≤ m) :
    1 ≤ monthWalk leap doy m ∧ monthWalk leap doy m ≤ m ∧ monthThreshold leap (monthWalk leap doy m) ≤ doy ∧
      ∀ k, monthWalk leap doy m < k → k ≤ m → doy < monthThreshold leap k := by
  induction m with
  | zero => omega
  | succ m ih =>
    simp only [monthWalk]
    split
    · rename_i h
      rcases Nat.eq_zero_or_pos m with rfl | hp
      · simp [monthThreshold, cum] at h
      · obtain ⟨h1, h2, h3, h4⟩ := ih hp
        refine ⟨h1, by omega, h3, fun k hk hk' => ?_⟩
        rcases Nat.lt_or_ge m k with hh | hh
        · obtain rfl : k = m + 1 := by omega
          exact h
        · exact h4 k hk hh
    · rename_i h
      exact ⟨by omega, le_rfl, by omega, fun k hk hk' => by omega⟩

/-! ### Four-year blocks -/

/-- The walker's periods (R148). -/
theorem periods_eq (days : Nat) : periods days = days / 1461 + (if 60 ≤ days % 1461 then 1 else 0) := by
  by_cases h : 60 ≤ days % 1461
  · rw [if_pos h]; exact if_pos h
  · rw [if_neg h]; exact if_neg h

/-- The day of the year (R149). -/
theorem dayOfYear_eq (days : Nat) :
    dayOfYear days = days - yearsOf days * 365 - periods days
      + (if 60 ≤ days % 1461 ∧ days % 1461 ≤ 365 then 1 else 0) := rfl

/-- Years and day of year, year by year of a four-year block: the first year has 366 days, the others 365. -/
theorem block_cases (days : Nat) :
    (days % 1461 < 366 ∧ yearsOf days = 4 * (days / 1461) ∧ dayOfYear days = days % 1461) ∨
    (366 ≤ days % 1461 ∧ days % 1461 < 731 ∧ yearsOf days = 4 * (days / 1461) + 1 ∧
      dayOfYear days = days % 1461 - 366) ∨
    (731 ≤ days % 1461 ∧ days % 1461 < 1096 ∧ yearsOf days = 4 * (days / 1461) + 2 ∧
      dayOfYear days = days % 1461 - 731) ∨
    (1096 ≤ days % 1461 ∧ yearsOf days = 4 * (days / 1461) + 3 ∧ dayOfYear days = days % 1461 - 1096) := by
  have hp := periods_eq days
  have hy : yearsOf days = (days - periods days) / 365 := rfl
  have hd := dayOfYear_eq days
  by_cases c1 : days % 1461 < 366
  · refine .inl ⟨c1, ?_⟩
    by_cases c0 : 60 ≤ days % 1461
    · rw [if_pos c0] at hp; rw [if_pos ⟨c0, by omega⟩] at hd; omega
    · rw [if_neg c0] at hp; rw [if_neg (fun h => c0 h.1)] at hd; omega
  · rw [if_pos (by omega)] at hp; rw [if_neg (by omega)] at hd
    by_cases c2 : days % 1461 < 731
    · exact .inr (.inl ⟨by omega, c2, by omega, by omega⟩)
    · by_cases c3 : days % 1461 < 1096
      · exact .inr (.inr (.inl ⟨by omega, c3, by omega, by omega⟩))
      · exact .inr (.inr (.inr ⟨by omega, by omega, by omega⟩))

/-- The leap test of the month walk holds exactly in the first year of a block (R151). -/
theorem isLeapOffset_yearsOf (days : Nat) : isLeapOffset (yearsOf days) = decide (days % 1461 < 366) := by
  have := block_cases days
  rw [isLeapOffset, Bool.eq_iff_iff]
  simp only [beq_iff_eq, decide_eq_true_eq]
  omega

/-! ### Time of day -/

/-- The splitter, with the nested divisions written as one (R147). -/
theorem splitTime_eq (t : Nat) : splitTime t = ⟨t % 60, t / 60 % 60, t / 3600 % 24, t / 86400⟩ := by
  simp only [splitTime, Nat.div_div_eq_div_mul]

/-- The day's date: its month is a month, its day is a day the month has by the divisible-by-4 rule, and the days
counted to it by R142 to R144 are the days it was made from. -/
theorem date_of_days (days : Nat) :
    1 ≤ monthOf days ∧ monthOf days ≤ 12 ∧ 1 ≤ dayOfMonth days ∧
      dayOfMonth days ≤ daysInMonth (yearsOf days) (monthOf days) ∧
      yearsOf days * 365 + leapDays (yearsOf days) (monthOf days) + cum (monthOf days) + dayOfMonth days = days + 1 := by
  have hb := block_cases days
  have hq : days = 1461 * (days / 1461) + days % 1461 ∧ days % 1461 < 1461 := by omega
  obtain ⟨h1, h2, h3, h4⟩ := monthWalk_spec (isLeapOffset (yearsOf days)) (dayOfYear days) (by decide : 1 ≤ 12)
  rw [show monthWalk (isLeapOffset (yearsOf days)) (dayOfYear days) 12 = monthOf days from rfl] at h1 h2 h3 h4
  have h5 : monthOf days < 12 →
      dayOfYear days < monthThreshold (isLeapOffset (yearsOf days)) (monthOf days + 1) :=
    fun hh => h4 (monthOf days + 1) (by omega) (by omega)
  rw [show dayOfMonth days =
    dayOfYear days - monthThreshold (isLeapOffset (yearsOf days)) (monthOf days) + 1 from rfl]
  clear h4
  rw [isLeapOffset_yearsOf] at *
  generalize monthOf days = m at *
  generalize yearsOf days = y at *
  generalize dayOfYear days = doy at *
  generalize days / 1461 = q at *
  generalize days % 1461 = r at *
  have hl : leapDays y m = q + (if r < 366 then (if 2 < m then 1 else 0) else 1) := by
    rw [leapDays, Nat.shiftRight_eq_div_pow]
    split <;> split <;> (try split) <;> omega
  have hy : y % 4 = 0 ↔ r < 366 := by omega
  simp only [hl, daysInMonth, hy, monthThreshold_eq, decide_eq_true_eq] at h3 h5 ⊢
  by_cases hr : r < 366
  all_goals
    simp only [hr, true_and, false_and, if_true, if_false] at h3 h5 ⊢
    clear hl hy
    interval_cases m <;> simp [cum] at h3 h5 ⊢ <;> omega

theorem daysInMonth_le (y m : Nat) : daysInMonth y m ≤ 31 := by
  unfold daysInMonth; split <;> (try split) <;> omega

/-! ### The two conversions -/

/-- Below the reference the answer is the fallback (R150). -/
theorem epochToCalendar_of_lt {e : EpochSeconds} (h : e.toNat < 946684800) : epochToCalendar e = zeroCalendar :=
  if_pos h

/-- From the reference up, every field of the answer as a number: none of the narrowings loses a bit (R147 to
R154, R171). -/
theorem epochToCalendar_fields {e : EpochSeconds} (h : 946684800 ≤ e.toNat) :
    let t := e.toNat - 946684800
    let days := t / 86400
    days ≤ 38753 ∧ yearsOf days ≤ 106 ∧
      (epochToCalendar e).year.toNat = 2000 + yearsOf days ∧ (epochToCalendar e).month.toNat = monthOf days ∧
      (epochToCalendar e).dom.toNat = dayOfMonth days ∧ (epochToCalendar e).hour.toNat = t / 3600 % 24 ∧
      (epochToCalendar e).minute.toNat = t / 60 % 60 ∧ (epochToCalendar e).second.toNat = t % 60 ∧
      (epochToCalendar e).dow.toNat = (days + 4) % 7 := by
  have he : epochToCalendar e = calendarSinceReference (e.toNat - 946684800) :=
    if_neg (Nat.not_lt.2 h)
  have hlt := e.isLt
  rw [he]
  generalize ht : e.toNat - 946684800 = t
  intro t' days
  have hdays : days ≤ 38753 := by show t / 86400 ≤ 38753; omega
  obtain ⟨h1, h2, h3, h4, -⟩ := date_of_days days
  have h5 := daysInMonth_le (yearsOf days) (monthOf days)
  have hb := block_cases days
  simp only [calendarSinceReference, splitTime_eq, BitVec.toNat_ofNat, dayOfWeek, Config.dowOffset]
  change days ≤ 38753 ∧ yearsOf days ≤ 106 ∧ (2000 + yearsOf days) % 65536 = _ ∧ monthOf days % 256 = _ ∧
    dayOfMonth days % 256 = _ ∧ _
  omega

/-- The day accumulator as one integer sum (R144). -/
theorem daysOf_eq (c : CalendarValue) :
    daysOf c = (offsetYear c.year : Int) * 365 + leapDays (offsetYear c.year) c.month.toNat + cum c.month.toNat
      + ((c.dom.toNat : Int) - 1) := by
  simp only [daysOf]; push_cast; ring

/-- The leap-day counter, with the shift written as a division (R143). -/
theorem leapDays_eq (y m : Nat) : leapDays y m = (y + 3) / 4 + (if y % 4 = 0 ∧ 2 < m then 1 else 0) := by
  rw [leapDays, Nat.shiftRight_eq_div_pow]

end Sys2Proof.Machine
end

