-- ==== Sys2Proof/Laws/State.lean ====
section
/-! SUPPORT. One lemma per field per update of State, and per byte per write of the Register Buffer, so that no
proof unfolds a record update. -/

namespace Sys2Proof.Machine

/-! ### `RB[i]` -/

@[simp] theorem readByte_writeByte_same (t : RawTime) (f : RegField) (v : Byte) :
    readByte (writeByte t f v) f = v := by
  cases f <;> rfl

theorem readByte_writeByte_other (t : RawTime) {f g : RegField} (v : Byte) (h : g ≠ f) :
    readByte (writeByte t f v) g = readByte t g := by
  cases f <;> cases g <;> first | rfl | exact absurd rfl h

/-- Two buffers with the same seven bytes are the same buffer. -/
theorem rawTime_ext {t u : RawTime} (h : ∀ f, readByte t f = readByte u f) : t = u := by
  cases t; cases u
  have h0 := h .sec; have h1 := h .min; have h2 := h .hour; have h3 := h .dow
  have h4 := h .dom; have h5 := h .mon; have h6 := h .year
  simp only [readByte] at h0 h1 h2 h3 h4 h5 h6
  subst h0 h1 h2 h3 h4 h5 h6; rfl

/-! ### `State.respond` -/

@[simp] theorem State.respond_rb (s : State) (r : Response) : (s.respond r).rb = s.rb := rfl
@[simp] theorem State.respond_port (s : State) (r : Response) : (s.respond r).port = s.port := rfl
@[simp] theorem State.respond_response (s : State) (r : Response) : (s.respond r).response = some r := rfl
@[simp] theorem State.respond_respond (s : State) (r q : Response) : (s.respond r).respond q = s.respond q := rfl

/-! ### `State.storeField` -/

@[simp] theorem State.storeField_rb (s : State) (f : RegField) (v : Byte) :
    (s.storeField f v).rb = writeByte s.rb f v := rfl
@[simp] theorem State.storeField_port (s : State) (f : RegField) (v : Byte) :
    (s.storeField f v).port = s.port := rfl
@[simp] theorem State.storeField_response (s : State) (f : RegField) (v : Byte) :
    (s.storeField f v).response = some (Response.okData 0) := rfl

/-! ### `State.storeAll` -/

@[simp] theorem State.storeAll_rb (s : State) (t : RawTime) (r : Response) : (s.storeAll t r).rb = t := rfl
@[simp] theorem State.storeAll_port (s : State) (t : RawTime) (r : Response) :
    (s.storeAll t r).port = s.port := rfl
@[simp] theorem State.storeAll_response (s : State) (t : RawTime) (r : Response) :
    (s.storeAll t r).response = some r := rfl

/-! ### The exception, the reset event and the port -/

@[simp] theorem State.raiseIllegalCommand_rb (s : State) : s.raiseIllegalCommand.rb = s.rb := rfl
@[simp] theorem State.raiseIllegalCommand_port (s : State) : s.raiseIllegalCommand.port = s.port := rfl
@[simp] theorem State.raiseIllegalCommand_response (s : State) :
    s.raiseIllegalCommand.response = some Response.illegalCommand := rfl

@[simp] theorem State.resetEvent_rb (s : State) : s.resetEvent.rb = State.reset.rb := rfl
@[simp] theorem State.resetEvent_port (s : State) : s.resetEvent.port = s.port := rfl
@[simp] theorem State.resetEvent_response (s : State) : s.resetEvent.response = none := rfl

@[simp] theorem State.withFetchWord_rb (s : State) (nbits w : Nat) : (s.withFetchWord nbits w).rb = s.rb := rfl
@[simp] theorem State.withFetchWord_port (s : State) (nbits w : Nat) :
    (s.withFetchWord nbits w).port = .command (commandWord nbits w) :: s.port := rfl
@[simp] theorem State.withFetchWord_response (s : State) (nbits w : Nat) :
    (s.withFetchWord nbits w).response = s.response := rfl

end Sys2Proof.Machine
end

