-- ==== Sys2Proof/Laws/Step.lean ====
section
/-! SUPPORT. What a step and the port can do, said once: every invariant of the machine is a case analysis on
`step_cases`. -/

namespace Sys2Proof.Machine

theorem takeEvent_cases (s : State) :
    (s.port = [] ∧ s.takeEvent = none) ∨
    ∃ e rest, s.port = e :: rest ∧ s.takeEvent = some (e, { s with port := rest }) := by
  cases h : s.port with
  | nil => exact .inl ⟨rfl, by simp [State.takeEvent, h]⟩
  | cons e rest => exact .inr ⟨e, rest, rfl, by simp [State.takeEvent, h]⟩

/-- Everything a step can do: nothing with an empty port; the reset event; the one exception for a word that does
not decode; or the command the word decodes to. -/
theorem step_cases {s s' : State} (h : step s = .next s') :
    (s.port = [] ∧ s' = s) ∨
    (∃ rest, s.port = .reset :: rest ∧ s' = { State.reset with port := rest }) ∨
    (∃ cmd rest why, s.port = .command cmd :: rest ∧ decode cmd = .error why ∧
      s' = { s with port := rest, response := some Response.illegalCommand }) ∨
    (∃ cmd rest i, s.port = .command cmd :: rest ∧ decode cmd = .ok i ∧ exec i { s with port := rest } = .next s') := by
  obtain ⟨hp, ht⟩ | ⟨e, rest, hp, ht⟩ := takeEvent_cases s
  · simp only [step, ht, State.idle, Host.Outcome.next.injEq] at h
    exact .inl ⟨hp, h.symm⟩
  · cases e with
    | reset =>
      simp only [step, ht, Host.Outcome.next.injEq] at h
      exact .inr (.inl ⟨rest, hp, h.symm⟩)
    | command cmd =>
      simp only [step, ht] at h
      cases hd : decode cmd with
      | ok i =>
        rw [hd] at h
        exact .inr (.inr (.inr ⟨cmd, rest, i, hp, hd, h⟩))
      | error why =>
        rw [hd] at h
        simp only [Host.Outcome.next.injEq] at h
        exact .inr (.inr (.inl ⟨cmd, rest, why, hp, hd, h.symm⟩))

/-- A presented word that does not decode raises the one exception (R180). -/
theorem step_of_illegal {s : State} {cmd : CommandWord} {rest : List PortEvent} {why : IllegalWord}
    (hp : s.port = .command cmd :: rest) (hd : decode cmd = .error why) :
    step s = .next { s with port := rest, response := some Response.illegalCommand } := by
  simp only [step, State.takeEvent, hp, hd]; rfl

/-- A presented word that decodes runs its command. -/
theorem step_of_legal {s : State} {cmd : CommandWord} {rest : List PortEvent} {i : Instr}
    (hp : s.port = .command cmd :: rest) (hd : decode cmd = .ok i) : step s = exec i { s with port := rest } := by
  simp only [step, State.takeEvent, hp, hd]

/-- The words of one opcode, for an opcode whose arm of `decode` reads `mk payload` in format `f`. -/
theorem wordsSpell_of {op : Opcode} {f : PayloadFormat} {mk : Payload → Instr}
    (h : ∀ cmd, opcodeOf cmd = op → decode cmd = decodeAs f (mk (payloadOf cmd)) cmd) :
    WordsSpell op f.operandBits mk := fun cmd hop =>
  ⟨fun hb => by rw [h cmd hop, decodeAs_of_lt _ hb],
   fun hb _ _ hp => step_of_illegal hp (by rw [h cmd hop, decodeAs_of_le _ hb])⟩

/-- The words of an opcode whose format has no reserved bit (R62). -/
theorem everyWordSpells_of {op : Opcode} {mk : Payload → Instr}
    (h : ∀ cmd, opcodeOf cmd = op → decode cmd = decodeAs .c (mk (payloadOf cmd)) cmd) :
    EveryWordSpells op mk := fun cmd hop => by rw [h cmd hop, decodeAs_of_lt _ (payloadOf cmd).isLt]

/-- What a command does to the buffer and which response it gives, for every command: the one inversion lemma of
`exec`. A command that stores keeps the port and answers no data. -/
theorem exec_shape (i : Instr) (s : State) :
    (∃ data, exec i s = .next (s.respond (Response.okData data))) ∨
    (∃ data addr count, (addr = 0x00 ∧ count = 7 ∨ addr = 0x07 ∧ count = 4 ∨ addr = 0x0B ∧ count = 3) ∧
      data.toNat < 2 ^ (8 * count.toNat) ∧ exec i s = .next (s.respond (Response.okBus data addr count))) ∨
    (∃ f v, exec i s = .next (s.storeField f v)) ∨
    (∃ t data, exec i s = .next (s.storeAll t (Response.okData data))) := by
  cases i
  case rbdump => exact .inr (.inl ⟨s.rb.pack, _, _, .inl ⟨rfl, rfl⟩, s.rb.pack_lt, rfl⟩)
  case alm1pk mode =>
    refine .inr (.inl ⟨packLanes (alarm1Bytes mode s.rb), _, _, .inr (.inl ⟨rfl, rfl⟩), ?_, rfl⟩)
    rw [packLanes_toNat (l := alarm1Bytes mode s.rb) (by simp [alarm1Bytes])]; exact lanesToNat_lt _
  case alm2pk mode =>
    refine .inr (.inl ⟨packLanes (alarm2Bytes mode s.rb), _, _, .inr (.inr ⟨rfl, rfl⟩), ?_, rfl⟩)
    rw [packLanes_toNat (l := alarm2Bytes mode s.rb) (by simp [alarm2Bytes])]; exact lanesToNat_lt _
  case setsec | setmin | sethour | setdow | setdom | setmon | setyear => exact .inr (.inr (.inl ⟨_, _, rfl⟩))
  case rbload | calenc | ep2cal => exact .inr (.inr (.inr ⟨_, _, rfl⟩))
  all_goals exact .inl ⟨_, rfl⟩

end Sys2Proof.Machine
end

