-- ==== Sys2Proof/Laws/PerInstr.lean ====
section
/-! SUPPORT. Statements made command by command. -/

namespace Sys2Proof.Laws.EncodingSpellsRow

/-- The word that encodes a command lies in its own row of R64: the row has the command's mnemonic, and the
word's opcode and reserved payload bits are as the row's format asks (R60, R61). -/
def Statement (i : Instr) : Prop :=
  opcodeOf (encode i) = i.mnemonic.opcode ∧
    (payloadOf (encode i)).toNat < 2 ^ i.mnemonic.format.operandBits ∧
    ∃ r ∈ opcodeTable, r.mnemonic = i.mnemonic

/-- A widened operand fits the field it was widened from. -/
theorem setWidth_fits {n : Nat} (v : BitVec n) : (v.setWidth 64).toNat < 2 ^ n :=
  Nat.lt_of_le_of_lt (by rw [BitVec.toNat_setWidth]; exact Nat.mod_le _ _) v.isLt

/-- The statement from a bound on the payload; the row is found by looking. -/
theorem of_payload {i : Instr} (h : i.payload.toNat < 2 ^ i.mnemonic.format.operandBits)
    (hr : ∃ r ∈ opcodeTable, r.mnemonic = i.mnemonic) : Statement i :=
  ⟨opcodeOf_encode i, by rw [payloadOf_encode]; exact h, hr⟩

/-- Every mnemonic has a row. -/
theorem row_of (m : Mnemonic) : ∃ r ∈ opcodeTable, r.mnemonic = m := by cases m <;> decide

theorem bcd2bin (b : Byte) : Statement (.bcd2bin b) := of_payload (setWidth_fits b) (row_of _)
theorem bin2bcd (v : Byte) : Statement (.bin2bcd v) := of_payload (setWidth_fits v) (row_of _)
theorem getsec : Statement .getsec := of_payload (by decide) (row_of _)
theorem getmin : Statement .getmin := of_payload (by decide) (row_of _)
theorem gethour : Statement .gethour := of_payload (by decide) (row_of _)
theorem getdow : Statement .getdow := of_payload (by decide) (row_of _)
theorem getdom : Statement .getdom := of_payload (by decide) (row_of _)
theorem getmon : Statement .getmon := of_payload (by decide) (row_of _)
theorem getyear : Statement .getyear := of_payload (by decide) (row_of _)
theorem setsec (v : Byte) : Statement (.setsec v) := of_payload (setWidth_fits v) (row_of _)
theorem setmin (v : Byte) : Statement (.setmin v) := of_payload (setWidth_fits v) (row_of _)
theorem sethour (v : Byte) : Statement (.sethour v) := of_payload (setWidth_fits v) (row_of _)
theorem setdow (v : Byte) : Statement (.setdow v) := of_payload (setWidth_fits v) (row_of _)
theorem setdom (v : Byte) : Statement (.setdom v) := of_payload (setWidth_fits v) (row_of _)
theorem setmon (v : Byte) : Statement (.setmon v) := of_payload (setWidth_fits v) (row_of _)
theorem setyear (h : Year) : Statement (.setyear h) := of_payload (setWidth_fits h) (row_of _)
theorem rbload (raw : RawTime) : Statement (.rbload raw) := of_payload raw.pack_lt (row_of _)
theorem rbdump : Statement .rbdump := of_payload (by decide) (row_of _)
theorem caldec : Statement .caldec := of_payload (by decide) (row_of _)
theorem calenc (c : CalendarValue) : Statement (.calenc c) := of_payload c.pack.isLt (row_of _)
theorem cal2ep (c : CalendarValue) : Statement (.cal2ep c) := of_payload c.pack.isLt (row_of _)
theorem ep2cal (e : EpochSeconds) : Statement (.ep2cal e) := of_payload (setWidth_fits e) (row_of _)
theorem alm1pk (mode : Mode) : Statement (.alm1pk mode) := of_payload (setWidth_fits mode) (row_of _)
theorem alm2pk (mode : Mode) : Statement (.alm2pk mode) := of_payload (setWidth_fits mode) (row_of _)

end Sys2Proof.Laws.EncodingSpellsRow
end

