-- ==== Sys2Proof/Tests/Slice0.lean ====
section
/-! SUPPORT. Tests, one step each. Every expected value is the spec's own: a worked example of the rule named, or a
row of `95_test_vectors.md`. The last part shows, for each statement with hypotheses, concrete data meeting them. -/

namespace Sys2Proof.Tests

open Sys2Proof Sys2Proof.Machine

/-- The response a command gives on a buffer. -/
def answer (i : Instr) (t : RawTime) : Option Response :=
  match exec i { State.reset with rb := t } with
  | .next s => s.response
  | .fault _ => none
  | .refused _ => none

/-- The state after one step; none where the machine stops. -/
def after (s : State) : Option State :=
  match step s with
  | .next s' => some s'
  | .fault _ => none
  | .refused _ => none

/-- The response of a command with no chip bytes. -/
def plain (data : Payload) : Option Response := some ⟨.ok, data, 0, 0⟩

/-- An all-zero buffer. -/
def zeros : RawTime := ⟨0, 0, 0, 0, 0, 0, 0⟩

/-- 2024-02-29T23:59:58, the buffer of the worked examples of R110 to R130. -/
def leapNight : RawTime := ⟨0x58, 0x59, 0x23, 0x04, 0x29, 0x02, 0x24⟩

/-- A buffer of invalid bytes (`95_test_vectors.md` section 4). -/
def oddBytes : RawTime := ⟨0x80, 0x7F, 0x52, 0x08, 0x3F, 0x92, 0xFF⟩

/-- The buffer of the worked examples of R164 and R165. -/
def alarmTime : RawTime := ⟨0x30, 0x15, 0x07, 0x03, 0x21, 0x11, 0x24⟩

/-- A state whose host has presented these words. -/
def presenting (t : RawTime) (words : List CommandWord) : State :=
  { State.reset with rb := t, port := words.map PortEvent.command }

/-! ### Checks refuse what is ill formed -/

theorem test_line_with_too_few_operands_refused : AsmLine.countOk ⟨.rbload, [1, 2, 3, 4, 5, 6]⟩ = false := by decide
theorem test_line_with_too_many_operands_refused : AsmLine.wellFormed ⟨.getsec, [0]⟩ = false := by decide
theorem test_line_without_operand_refused : AsmLine.wellFormed ⟨.ep2cal, []⟩ = false := by decide
theorem test_line_with_wide_byte_refused : AsmLine.widthsOk ⟨.bcd2bin, [256]⟩ = false := by decide
theorem test_line_with_wide_year_refused : AsmLine.widthsOk ⟨.setyear, [65536]⟩ = false := by decide
theorem test_line_with_wide_word_refused : AsmLine.widthsOk ⟨.ep2cal, [4294967296]⟩ = false := by decide
theorem test_line_with_wide_mode_refused : AsmLine.widthsOk ⟨.alm1pk, [32]⟩ = false := by decide
theorem test_assembler_names_the_check_that_failed :
    assemble ⟨.setsec, [256]⟩ = .error .operandTooWide ∧ assemble ⟨.setsec, []⟩ = .error .operandCount := by decide
theorem test_bcd_byte_refused : isBcdByte 0xA0 = false ∧ isBcdByte 0x0A = false ∧ isBcdByte 0x99 = true := by decide
theorem test_raw_time_not_bcd_refused : oddBytes.isBcd = false ∧ leapNight.isBcd = true := by decide
theorem test_raw_time_not_in_range_refused :
    RawTime.validFields zeros = false ∧ RawTime.bounded { zeros with sec := 0x60 } = false ∧ leapNight.validFields = true := by decide
theorem test_year_out_of_contract_refused :
    yearInContract 100 = false ∧ yearInContract 1999 = false ∧ yearInContract 2100 = false ∧ yearInContract 99 = true := by decide
theorem test_thirtieth_of_february_refused :
    CalendarValue.validDateTime ⟨2024, 2, 30, 0, 0, 0, 0⟩ = false ∧ CalendarValue.validDateTime ⟨2023, 2, 29, 0, 0, 0, 0⟩ = false := by decide
theorem test_calendar_time_refused :
    CalendarValue.validDateTime ⟨2024, 1, 1, 24, 0, 0, 0⟩ = false ∧ CalendarValue.validDateTime ⟨2024, 1, 1, 0, 60, 0, 0⟩ = false ∧
      CalendarValue.validDateTime ⟨2024, 1, 1, 0, 0, 60, 0⟩ = false ∧ CalendarValue.validDateTime ⟨2024, 13, 1, 0, 0, 0, 0⟩ = false := by decide
theorem test_operands_out_of_contract_refused :
    (Instr.setsec 60).inContract = false ∧ (Instr.setmin 60).inContract = false ∧ (Instr.sethour 24).inContract = false ∧
      (Instr.setdow 0).inContract = false ∧ (Instr.setdom 32).inContract = false ∧ (Instr.setmon 13).inContract = false ∧
      (Instr.setyear 1999).inContract = false ∧ (Instr.bin2bcd 100).inContract = false := by decide
theorem test_wide_operands_out_of_contract_refused :
    (Instr.ep2cal 946684799).inContract = false ∧ (Instr.rbload oddBytes).inContract = false ∧
      (Instr.calenc ⟨2024, 1, 1, 0, 0, 0, 0⟩).inContract = false ∧ (Instr.cal2ep ⟨2024, 2, 30, 0, 0, 0, 0⟩).inContract = false := by decide

/-! ### Decoding: one word for each command, from the rules' worked examples -/

/-- R102. -/
theorem test_decode_bcd2bin : decodeTableWord 72 0x010000000000000059 = some (.bcd2bin 0x59) := by decide
/-- R103. -/
theorem test_decode_bin2bcd : decodeTableWord 72 0x02000000000000002A = some (.bin2bcd 42) := by decide
/-- R110. -/
theorem test_decode_getsec : decodeTableWord 72 0x100000000000000000 = some .getsec := by decide
/-- R111. -/
theorem test_decode_getmin : decodeTableWord 72 0x110000000000000000 = some .getmin := by decide
/-- R112. -/
theorem test_decode_gethour : decodeTableWord 72 0x120000000000000000 = some .gethour := by decide
/-- R113. -/
theorem test_decode_getdow : decodeTableWord 72 0x130000000000000000 = some .getdow := by decide
/-- R114. -/
theorem test_decode_getdom : decodeTableWord 72 0x140000000000000000 = some .getdom := by decide
/-- R115. -/
theorem test_decode_getmon : decodeTableWord 72 0x150000000000000000 = some .getmon := by decide
/-- R116. -/
theorem test_decode_getyear : decodeTableWord 72 0x160000000000000000 = some .getyear := by decide
/-- R117. -/
theorem test_decode_setsec : decodeTableWord 72 0x20000000000000003A = some (.setsec 58) := by decide
/-- R118. -/
theorem test_decode_setmin : decodeTableWord 72 0x210000000000000007 = some (.setmin 7) := by decide
/-- R119. -/
theorem test_decode_sethour : decodeTableWord 72 0x220000000000000017 = some (.sethour 23) := by decide
/-- R120. -/
theorem test_decode_setdow : decodeTableWord 72 0x230000000000000007 = some (.setdow 7) := by decide
/-- R121. -/
theorem test_decode_setdom : decodeTableWord 72 0x24000000000000001D = some (.setdom 29) := by decide
/-- R122. -/
theorem test_decode_setmon : decodeTableWord 72 0x25000000000000000C = some (.setmon 12) := by decide
/-- R123. -/
theorem test_decode_setyear : decodeTableWord 72 0x2600000000000007E8 = some (.setyear 2024) := by decide
/-- R124. -/
theorem test_decode_rbload : decodeTableWord 72 0x300024022904235958 = some (.rbload leapNight) := by decide
/-- R125. -/
theorem test_decode_rbdump : decodeTableWord 72 0x310000000000000000 = some .rbdump := by decide
/-- R130. -/
theorem test_decode_caldec : decodeTableWord 72 0x400000000000000000 = some .caldec := by decide
/-- R131. -/
theorem test_decode_calenc :
    decodeTableWord 72 0x41043A3B171D0207E8 = some (.calenc ⟨2024, 2, 29, 23, 59, 58, 4⟩) := by decide
/-- R145. -/
theorem test_decode_cal2ep :
    decodeTableWord 72 0x50000000001D0207E8 = some (.cal2ep ⟨2024, 2, 29, 0, 0, 0, 0⟩) := by decide
/-- R155. -/
theorem test_decode_ep2cal : decodeTableWord 72 0x510000000065DFC900 = some (.ep2cal 1709164800) := by decide
/-- R164. -/
theorem test_decode_alm1pk : decodeTableWord 72 0x600000000000000008 = some (.alm1pk 8) := by decide
/-- R165. -/
theorem test_decode_alm2pk : decodeTableWord 72 0x610000000000000010 = some (.alm2pk 16) := by decide
/-- R68. -/
theorem test_decode_all_zero_word_illegal : decode 0x000000000000000000 = .error (.unassignedOpcode 0x00) := by decide
/-- R68. -/
theorem test_decode_gap_opcode_illegal : decodeTableWord 72 0x030000000000000000 = none := by decide
/-- R61, R68: the lowest reserved bit of each format that has one. -/
theorem test_decode_reserved_bits_illegal :
    decodeTableWord 72 0x310000000000000001 = none ∧ decodeTableWord 72 0x010000000000000100 = none ∧
      decodeTableWord 72 0x260000000000010000 = none ∧ decodeTableWord 72 0x510000000100000000 = none ∧
      decodeTableWord 72 0x300100000000000000 = none ∧ decodeTableWord 72 0x600000000000000020 = none := by decide
/-- R65: "each has a distinct `op`". -/
theorem test_opcode_rows_pairwise_disjoint : (opcodeTable.map fun r => opcodeOf r.pattern).Nodup := by decide
/-- R61, R64: the printed masks are the opcode and the format's reserved bits. -/
theorem test_opcode_rows_as_the_encoder_builds_them :
    ∀ r ∈ opcodeTable, opcodeOf r.pattern = r.mnemonic.opcode ∧ payloadOf r.pattern = 0 ∧ opcodeOf r.mask = 0xFF ∧
      (payloadOf r.mask).toNat = 2 ^ 64 - 2 ^ r.mnemonic.format.operandBits := by decide

/-! ### Commands -/

/-- R102. -/
theorem test_bcd2bin_decodes_digits : answer (.bcd2bin 0x59) zeros = plain 59 := by decide
/-- R102. -/
theorem test_bcd2bin_maximum : answer (.bcd2bin 0xFF) zeros = plain 165 := by decide
/-- R103. -/
theorem test_bin2bcd_packs_digits : answer (.bin2bcd 42) zeros = plain 0x42 := by decide
/-- R103. -/
theorem test_bin2bcd_truncates_tens :
    answer (.bin2bcd 160) zeros = plain 0x00 ∧ answer (.bin2bcd 255) zeros = plain 0x95 := by decide
/-- R110. -/
theorem test_getsec : answer .getsec leapNight = plain 58 ∧ answer .getsec oddBytes = plain 80 := by decide
/-- R111; `95_test_vectors.md` section 4. -/
theorem test_getmin :
    answer .getmin { zeros with min := 0x07 } = plain 7 ∧ answer .getmin oddBytes = plain 85 := by decide
/-- R112. -/
theorem test_gethour : answer .gethour leapNight = plain 23 ∧ answer .gethour oddBytes = plain 52 := by decide
/-- R113. -/
theorem test_getdow : answer .getdow leapNight = plain 4 ∧ answer .getdow oddBytes = plain 8 := by decide
/-- R114. -/
theorem test_getdom : answer .getdom leapNight = plain 29 ∧ answer .getdom oddBytes = plain 45 := by decide
/-- R115. -/
theorem test_getmon :
    answer .getmon { zeros with mon := 0x12 } = plain 12 ∧ answer .getmon oddBytes = plain 92 := by decide
/-- R116. -/
theorem test_getyear_is_an_offset :
    answer .getyear leapNight = plain 24 ∧ answer .getyear oddBytes = plain 165 := by decide
/-- R117. -/
theorem test_setsec :
    bufferAfter leapNight (.setsec 160) = { leapNight with sec := 0x00 } ∧ bufferAfter zeros (.setsec 58) = { zeros with sec := 0x58 } := by decide
/-- R118. -/
theorem test_setmin : bufferAfter leapNight (.setmin 7) = { leapNight with min := 0x07 } := by decide
/-- R119. -/
theorem test_sethour : bufferAfter zeros (.sethour 23) = { zeros with hour := 0x23 } := by decide
/-- R120. -/
theorem test_setdow : bufferAfter leapNight (.setdow 7) = { leapNight with dow := 0x07 } := by decide
/-- R121. -/
theorem test_setdom : bufferAfter zeros (.setdom 29) = { zeros with dom := 0x29 } := by decide
/-- R122. -/
theorem test_setmon_accepts_month_13 :
    bufferAfter leapNight (.setmon 13) = { leapNight with mon := 0x13 } := by decide
/-- R123. -/
theorem test_setyear_normalises :
    bufferAfter zeros (.setyear 2024) = { zeros with year := 0x24 } ∧ bufferAfter zeros (.setyear 1999) = { zeros with year := 0x47 } := by decide
/-- R123. -/
theorem test_setyear_narrows_to_eight_bits :
    bufferAfter zeros (.setyear 2255) = { zeros with year := 0x95 } ∧ bufferAfter leapNight (.setyear 2256) = { leapNight with year := 0x00 } := by decide
/-- R124. -/
theorem test_rbload_lowest_lane_is_seconds :
    (after (presenting oddBytes [0x300024022904235958])).map State.rb = some leapNight := by decide
/-- R125. -/
theorem test_rbdump_hands_over_seven_bytes :
    answer .rbdump leapNight = some ⟨.ok, 0x0024022904235958, 0x00, 7⟩ := by decide
/-- R130. -/
theorem test_caldec_leap_night : answer .caldec leapNight = plain 0x043A3B171D0207E8 := by decide
/-- `95_test_vectors.md` section 4. -/
theorem test_caldec_invalid_bytes : answer .caldec oddBytes = plain 0x085055342D5C0875 := by decide
/-- R131. -/
theorem test_calenc_leap_night : bufferAfter zeros (.calenc ⟨2024, 2, 29, 23, 59, 58, 4⟩) = leapNight := by decide
/-- R131. -/
theorem test_calenc_stores_impossible_date :
    bufferAfter leapNight (.calenc ⟨2023, 2, 31, 0, 0, 0, 0⟩) = ⟨0, 0, 0, 0, 0x31, 0x02, 0x23⟩ := by decide
/-- R145. -/
theorem test_cal2ep_leap_day :
    answer (.cal2ep ⟨2024, 2, 29, 0, 0, 0, 0⟩) oddBytes = plain 0x0000000065DFC900 := by decide
/-- R145. -/
theorem test_cal2ep_wraps :
    answer (.cal2ep ⟨1999, 12, 31, 23, 59, 59, 0⟩) zeros = plain 3932342655 ∧
      answer (.cal2ep ⟨2106, 2, 6, 6, 28, 16, 0⟩) zeros = plain 0 := by decide
/-- R155. -/
theorem test_ep2cal_leap_day :
    answer (.ep2cal 1709164800) zeros = plain 0x020000001D0207E8 ∧
      bufferAfter oddBytes (.ep2cal 1709164800) = ⟨0x00, 0x00, 0x00, 0x02, 0x29, 0x02, 0x24⟩ := by decide
/-- R155, R150. -/
theorem test_ep2cal_last_second_of_leap_year_and_fallback :
    answer (.ep2cal 978307199) zeros = plain (CalendarValue.pack ⟨2000, 12, 31, 23, 59, 59, 5⟩) ∧
      bufferAfter leapNight (.ep2cal 946684799) = zeros := by decide
/-- R164. -/
theorem test_alm1pk_every_day : answer (.alm1pk 8) alarmTime = some ⟨.ok, 0x00000000A1071530, 0x07, 4⟩ := by decide
/-- R164: a mode bit of 0 "does not clear" the buffer's bit. -/
theorem test_alm1pk_keeps_bits_already_set :
    answer (.alm1pk 0) { zeros with sec := 0x80, dom := 0x40 } = some ⟨.ok, 0x0000000040000080, 0x07, 4⟩ := by decide
/-- R165. -/
theorem test_alm2pk_every_week : answer (.alm2pk 16) alarmTime = some ⟨.ok, 0x0000000000430715, 0x0B, 3⟩ := by decide
/-- R165. -/
theorem test_alm2pk_ignores_m1 : answer (.alm2pk 15) alarmTime = answer (.alm2pk 14) alarmTime := by decide

/-! ### The exception, the reset event and an idle step -/

/-- R180. -/
theorem test_illegal_word_answers_and_keeps_buffer :
    after (presenting leapNight [0x310000000000000001]) =
      some { presenting leapNight [] with response := some ⟨.illegal, 0, 0, 0⟩ } := by decide
/-- R201. -/
theorem test_reset_event_zeroes_buffer :
    after { presenting leapNight [] with port := [.reset] } = some State.reset := by decide
/-- Log 3. -/
theorem test_idle_step : after (presenting leapNight []) = some (presenting leapNight []) := by decide
/-- R117, log 7. -/
theorem test_first_step_after_reset_runs_the_word :
    (after (State.reset.withFetchWord 72 0x20000000000000003A)).map State.rb = some { zeros with sec := 0x58 } := by decide

/-! ### Assembler text (R70, R71) -/

theorem test_text_decimal_with_comment : readLine "SETSEC  58 ; comment".toList = .ok (some (.setsec 58)) := by decide
theorem test_text_hexadecimal_and_binary :
    readLine "BCD2BIN 0x59".toList = .ok (some (.bcd2bin 0x59)) ∧ readLine "ALM1PK 0b01000".toList = .ok (some (.alm1pk 8)) := by decide
theorem test_text_raw_bytes :
    readLine "RBLOAD 0x58,0x59,0x23,0x04,0x29,0x02,0x24".toList = .ok (some (.rbload leapNight)) := by decide
theorem test_text_named_mode : readLine "ALM2PK EVERY_WEEK".toList = .ok (some (.alm2pk 16)) := by decide
theorem test_text_six_operand_form :
    readLine "CAL2EP 2024,2,29,0,0,0 -> 1709164800".toList = .ok (some (.cal2ep ⟨2024, 2, 29, 0, 0, 0, 0⟩)) := by decide
theorem test_text_refused :
    readLine "NOP".toList = .error .unknownMnemonic ∧ readLine "SETSEC EVERY_DAY".toList = .error .badOperand ∧
      readLine "SETSEC 256".toList = .error (.badLine .operandTooWide) := by decide

/-! ### Witnesses: data that meets the hypotheses of each statement -/

theorem witness_ResetEventZeroesBuffer :
    ∃ (s : State) (rest : List PortEvent), s.port = .reset :: rest ∧ s.rb = leapNight := ⟨{ presenting leapNight [] with port := [.reset] }, [], rfl, rfl⟩
theorem witness_IdleStepChangesNothing : (presenting leapNight []).port = [] := rfl
theorem witness_StepRunsDecodedCommand :
    (presenting leapNight [0x20000000000000003A, 0]).port = .command 0x20000000000000003A :: [.command 0] ∧
      decode 0x20000000000000003A = .ok (.setsec 58) := by decide
theorem witness_CommandStepIsTotal :
    (presenting zeros [0]).port = .command 0 :: [] ∧ (presenting zeros [encode .caldec]).port = .command (encode .caldec) :: [] := ⟨rfl, rfl⟩
/-- For `IllegalWordRaisesIllegalCommand`, `CommandStepIsTotal` and `DecoderFollowsOpcodeMap`: an unassigned opcode at either end of the range, and the lowest reserved bit of an assigned one. -/
theorem witness_illegal_words :
    SpellsNoCommand 0x000000000000000000 ∧ SpellsNoCommand 0x310000000000000001 ∧ SpellsNoCommand 0xFF0000000000000000 := by unfold SpellsNoCommand; decide
theorem witness_legal_word : ¬ SpellsNoCommand 0x400000000000000000 := by unfold SpellsNoCommand; decide
/-- For the last clause of `IllegalWordRaisesIllegalCommand`, and for `IllegalReasons`. -/
theorem witness_unassigned_opcode :
    ∀ m : Mnemonic, opcodeOf 0xFF0000000000000000 ≠ m.opcode := by intro m; cases m <;> decide
theorem witness_IllegalWordRaisesIllegalCommand :
    (presenting leapNight [0]).port = .command 0 :: [] ∧ (presenting leapNight [0x310000000000000001]).port = .command 0x310000000000000001 :: [] := ⟨rfl, rfl⟩
/-- The words that spell no command are those of `witness_illegal_words`. -/
theorem witness_CommandAfterIllegalRunsNormally :
    (presenting leapNight [0, 0x20000000000000003A]).port = .command 0 :: .command 0x20000000000000003A :: [] ∧
      decode 0x20000000000000003A = .ok (.setsec 58) ∧
      (presenting leapNight [0, 0xFF0000000000000000]).port = .command 0 :: .command 0xFF0000000000000000 :: [] := ⟨rfl, by decide, rfl⟩
theorem witness_RunExecutesCommandsInOrder :
    ({ presenting leapNight [] with port := [.command (encode (.setsec 1)), .command (encode .rbdump), .reset] } : State).port =
      [Instr.setsec 1, .rbdump].map (fun i => PortEvent.command (encode i)) ++ [.reset] := rfl
theorem witness_EncodeOfDecode : decode 0x41043A3B171D0207E8 = .ok (.calenc ⟨2024, 2, 29, 23, 59, 58, 4⟩) := by decide
/-- A word of every row. -/
theorem witness_DecoderFollowsOpcodeMap : ∀ r ∈ opcodeTable, r.pattern &&& r.mask = r.pattern := by decide
theorem witness_IllegalReasons :
    (∀ m : Mnemonic, m.opcode ≠ opcodeOf 0) ∧ Mnemonic.opcode .ep2cal = opcodeOf 0x510000000100000000 ∧
      2 ^ (Mnemonic.format .ep2cal).operandWidths.sum ≤ (payloadOf 0x510000000100000000).toNat := ⟨by intro m; cases m <;> decide, by decide, by decide⟩
/-- For the words each result statement speaks of: the last payload that fits the format and the first that does not, for every command (format `C` has none that does not fit). -/
theorem witness_WordsSpell :
    ∀ r ∈ opcodeTable, opcodeOf r.pattern = r.mnemonic.opcode ∧
      (payloadOf (r.pattern ||| ~~~r.mask)).toNat = 2 ^ r.mnemonic.format.operandBits - 1 ∧
      opcodeOf (r.pattern ||| ~~~r.mask) = r.mnemonic.opcode ∧
      (r.mnemonic.format = .c ∨ opcodeOf (r.pattern + (1 <<< r.mnemonic.format.operandBits)) = r.mnemonic.opcode ∧
        (payloadOf (r.pattern + (1 <<< r.mnemonic.format.operandBits))).toNat = 2 ^ r.mnemonic.format.operandBits) := by decide
theorem witness_CodecRoundTrips :
    ((159 : Byte).toNat ≤ 159) ∧ 160 ≤ (160 : Byte).toNat ∧ (0x99 : Byte).toNat / 16 ≤ 9 ∧ (0x99 : Byte).toNat % 16 ≤ 9 := by decide
theorem witness_GetyearAfterSetyear :
    ((159 : Year).toNat ≤ 159) ∧ (2000 ≤ (2000 : Year).toNat ∧ (2000 : Year).toNat ≤ 2159) ∧
      (2000 ≤ (2159 : Year).toNat ∧ (2159 : Year).toNat ≤ 2159) := by decide
theorem witness_CaldecAfterCalenc :
    (99 : Year).toNat ≤ 99 ∧ (2000 ≤ (2000 : Year).toNat ∧ (2000 : Year).toNat ≤ 2099) ∧
      (2000 ≤ (2099 : Year).toNat ∧ (2099 : Year).toNat ≤ 2099) ∧ (99 : Byte).toNat ≤ 99 := by decide
theorem witness_CalencAfterCaldec :
    RawTime.isBcd ⟨0x99, 0x99, 0x99, 0x99, 0x99, 0x99, 0x99⟩ = true ∧ zeros.isBcd = true := by decide
theorem witness_Cal2epInContractIsExact :
    ∀ c ∈ [(⟨2000, 1, 1, 0, 0, 0, 0⟩ : CalendarValue), ⟨2099, 12, 31, 23, 59, 59, 7⟩, ⟨0, 2, 29, 0, 0, 0, 0⟩, ⟨99, 2, 28, 0, 0, 0, 0⟩],
      c.validDateTime = true := by decide
theorem witness_Cal2epIgnoresDowAndCentury : (CalendarValue.mk 99 1 1 0 0 0 0).year.toNat ≤ 99 := by decide
/-- For `Ep2calConverts`, `FallbackBeforeReference`, `Ep2calAnswersValidDate`, `CaldecAfterEp2cal`, `WeekdayCountsFromSaturday`, `Cal2epInvertsEp2cal` and `Ep2calAnswersGregorianDate`: each side of each boundary. -/
theorem witness_epoch_operands :
    (946684799 : EpochSeconds).toNat < 946684800 ∧ 946684800 ≤ (946684800 : EpochSeconds).toNat ∧
      946684800 ≤ (4294967295 : EpochSeconds).toNat ∧ (4102444799 : EpochSeconds).toNat ≤ 4102444799 := by decide
theorem witness_Ep2calInvertsCal2ep :
    ∀ c ∈ [(⟨2000, 1, 1, 0, 0, 0, 4⟩ : CalendarValue), ⟨2099, 12, 31, 23, 59, 59, 7⟩, ⟨2024, 2, 29, 12, 30, 15, 0⟩],
      c.validDateTime = true ∧ 2000 ≤ c.year.toNat := by decide
theorem witness_Cal2epCountsGregorianSeconds :
    gregorianValid 2000 1 1 0 0 0 = true ∧ gregorianValid 2099 12 31 23 59 59 = true ∧
      gregorianValid 2024 2 29 23 59 58 = true := by decide
theorem witness_EveryDayOnChannelOne :
    (0x7F : Byte).toNat < 128 ∧ alarmTime.sec.toNat < 128 ∧ alarmTime.min.toNat < 128 ∧ alarmTime.hour.toNat < 128 ∧
      alarmTime.dom.toNat < 128 := by decide
/-- For `UnwrittenBytesUnchanged` and `CommandsAreIdempotent`. -/
theorem witness_frame_and_idempotence :
    exec (.setsec 58) (presenting zeros []) =
      .next { presenting { zeros with sec := 0x58 } [] with response := plain 0 } := rfl
theorem witness_OnlyReadBytesMatter :
    (∀ f ∈ Instr.reads (.alm1pk 16), readByte alarmTime f = readByte { alarmTime with dom := 0x31, year := 0x99 } f) ∧
      alarmTime ≠ { alarmTime with dom := 0x31, year := 0x99 } := by decide
theorem witness_StepKeepsContract :
    InContract (presenting leapNight [encode (.calenc ⟨2099, 12, 31, 23, 59, 59, 7⟩)]) ∧
      ∃ s', step (presenting leapNight [encode (.calenc ⟨2099, 12, 31, 23, 59, 59, 7⟩)]) = .next s' := ⟨⟨by decide, by decide⟩, _, rfl⟩
theorem witness_StepKeepsResponseWellFormed :
    ResponseInvariant { presenting leapNight [encode .rbdump] with response := some ⟨.illegal, 0, 0, 0⟩ } ∧
      ∃ s', step (presenting leapNight [encode .rbdump]) = .next s' := ⟨by rintro r ⟨⟩; decide, _, rfl⟩

end Sys2Proof.Tests
end

section
/-! PROOFS. The scope: what a step does with an empty port and with a presented word, and that every command and
every command step completes. -/

namespace Sys2Proof

/-! ### The words of the opcode map, by opcode and reserved bits

The printed rows of R64 mask a whole word; R60 and R61 speak of the opcode and of the reserved payload bits. These
lemmas tie the two readings, and both to the decoder. -/

theorem opcodeOf_and (a b : CommandWord) : opcodeOf (a &&& b) = opcodeOf a &&& opcodeOf b :=
  BitVec.extractLsb'_and

theorem payloadOf_and (a b : CommandWord) : payloadOf (a &&& b) = payloadOf a &&& payloadOf b :=
  BitVec.extractLsb'_and

theorem commandWord_eq_iff {a b : CommandWord} :
    a = b ↔ opcodeOf a = opcodeOf b ∧ payloadOf a = payloadOf b :=
  ⟨fun h => h ▸ ⟨rfl, rfl⟩, fun ⟨ho, hp⟩ => commandWord_ext ho hp⟩

/-- A payload has no bit in common with the mask of the bits from `n` up exactly when it fits below bit `n`. -/
theorem and_highMask_eq_zero_iff (p : Payload) (n : Nat) :
    p &&& BitVec.allOnes 64 <<< n = 0 ↔ p.toNat < 2 ^ n := by
  have hle : p.toNat / 2 ^ n * 2 ^ n < 2 ^ 64 := Nat.lt_of_le_of_lt (Nat.div_mul_le_self _ _) p.isLt
  rw [← BitVec.shiftLeft_ushiftRight, ← BitVec.toNat_inj, BitVec.toNat_shiftLeft, BitVec.toNat_ushiftRight,
    Nat.shiftRight_eq_div_pow, Nat.shiftLeft_eq, Nat.mod_eq_of_lt hle]
  simp [Nat.div_eq_zero_iff]

/-- Each printed row holds its command's opcode, and its mask holds the opcode's bits and the reserved payload bits
of the command's format (R61, R64). -/
theorem opcodeTable_row {r : OpcodeRow} (hr : r ∈ opcodeTable) :
    opcodeOf r.pattern = r.mnemonic.opcode ∧ payloadOf r.pattern = 0 ∧ opcodeOf r.mask = BitVec.allOnes 8 ∧
      payloadOf r.mask = BitVec.allOnes 64 <<< r.mnemonic.format.operandBits := by
  revert r; decide

/-- A word matches a row exactly when it has the row's opcode and its reserved bits are 0 (R61, R65). -/
theorem matches_row_iff {r : OpcodeRow} (hr : r ∈ opcodeTable) (cmd : CommandWord) :
    cmd &&& r.mask = r.pattern ↔
      opcodeOf cmd = r.mnemonic.opcode ∧ (payloadOf cmd).toNat < 2 ^ r.mnemonic.format.operandBits := by
  obtain ⟨hop, hpay, hopMask, hpayMask⟩ := opcodeTable_row hr
  rw [commandWord_eq_iff, opcodeOf_and, payloadOf_and, hop, hpay, hopMask, hpayMask, BitVec.and_allOnes,
    and_highMask_eq_zero_iff]

/-- A word matches some row exactly when it has some command's opcode and clear reserved bits. -/
theorem not_spellsNoCommand_iff (cmd : CommandWord) :
    ¬ SpellsNoCommand cmd ↔
      ∃ m : Mnemonic, opcodeOf cmd = m.opcode ∧ (payloadOf cmd).toNat < 2 ^ m.format.operandBits := by
  simp only [SpellsNoCommand, not_forall, not_not, exists_prop]
  constructor
  · rintro ⟨r, hr, hmatch⟩
    exact ⟨r.mnemonic, (matches_row_iff hr cmd).1 hmatch⟩
  · rintro ⟨m, hm⟩
    obtain ⟨r, hr, rfl⟩ := Laws.EncodingSpellsRow.row_of m
    exact ⟨r, hr, (matches_row_iff hr cmd).2 hm⟩

/-- "The opcode alone selects the command and its payload format" (R60): the decoder has an arm for every
mnemonic. -/
theorem decode_of_opcode {cmd : CommandWord} {m : Mnemonic} (h : opcodeOf cmd = m.opcode) :
    ∃ i : Instr, i.mnemonic = m ∧ decode cmd = decodeAs m.format i cmd := by
  cases m <;> exact ⟨_, rfl, by rw [decode, h]; rfl⟩

/-- The decoder accepts exactly the words of the opcode map (R65). -/
theorem decode_ok_iff (cmd : CommandWord) : (∃ i, decode cmd = .ok i) ↔ ¬ SpellsNoCommand cmd := by
  rw [not_spellsNoCommand_iff]
  constructor
  · rintro ⟨i, hi⟩
    obtain ⟨hop, hpay⟩ := decode_eq_ok_cases hi
    exact ⟨i.mnemonic, BitVec.eq_of_toNat_eq hop, hpay⟩
  · rintro ⟨m, hop, hpay⟩
    obtain ⟨i, -, hd⟩ := decode_of_opcode hop
    exact ⟨i, hd.trans (decodeAs_of_lt i hpay)⟩

/-- The decoder rejects exactly the words that match no row (R68). -/
theorem decode_error_iff (cmd : CommandWord) : (∃ why, decode cmd = .error why) ↔ SpellsNoCommand cmd := by
  rw [← not_iff_not, ← decode_ok_iff]
  cases decode cmd <;> simp

end Sys2Proof

namespace Sys2Proof.Machine

/-- With nothing presented the step is the idle one (log 3). -/
theorem step_of_empty {s : State} (hp : s.port = []) : step s = .next s := by
  simp only [step, State.takeEvent, hp, State.idle]

/-- Every command ends in a next state with one `OK` response and the port kept (R10, R66). -/
theorem exec_completes (i : Instr) (s : State) :
    ∃ s' r, exec i s = .next s' ∧ s'.response = some r ∧ r.status = .ok ∧ s'.port = s.port := by
  obtain ⟨data, h⟩ | ⟨data, addr, count, -, -, h⟩ | ⟨f, v, h⟩ | ⟨t, data, h⟩ := exec_shape i s
  all_goals exact ⟨_, _, h, rfl, rfl, rfl⟩

/-- Settles O6: a word that matches a row runs its command, which completes; any other raises the one exception. -/
theorem commandStepIsTotal : Obligations.CommandStepIsTotal := by
  intro s cmd rest hp
  by_cases hno : SpellsNoCommand cmd
  · obtain ⟨why, hd⟩ := (decode_error_iff cmd).2 hno
    exact ⟨_, Response.illegalCommand, step_of_illegal hp hd, rfl, rfl, iff_of_false (by decide) (not_not.2 hno)⟩
  · obtain ⟨i, hd⟩ := (decode_ok_iff cmd).2 hno
    obtain ⟨s', r, he, hresp, hok, hport⟩ := exec_completes i { s with port := rest }
    exact ⟨s', r, (step_of_legal hp hd).trans he, hport, hresp, iff_of_true hok hno⟩

/-- Settles O3: the idle step. -/
theorem idleStepChangesNothing : Obligations.IdleStepChangesNothing := fun _ => step_of_empty

/-- Settles O4: the legal branch of the step. -/
theorem stepRunsDecodedCommand : Obligations.StepRunsDecodedCommand := fun _ _ _ _ => step_of_legal

/-- Settles O54: the four ways a command can end, each a next state with an `OK` response. -/
theorem everyCommandCompletes : Obligations.EveryCommandCompletes := exec_completes

end Sys2Proof.Machine
end

section
/-! PROOFS. The state (`10_state.md`): which bytes a command reads and writes (R23), the contract that keeps every
byte packed BCD within its field's bound (R21, R22), the content after reset (R25) and the reach of the buffer. -/

namespace Sys2Proof

open Machine

/-! ### Bounds, field by field

`RawTime.bounded` lists the seven bounds; read as a statement about every field it meets the rules for `readByte`
and `writeByte`. -/

/-- The upper end of a field's range (R21). -/
def RegField.upper : RegField → Nat
  | .sec | .min => 59
  | .hour => 23
  | .dow => 7
  | .dom => 31
  | .mon => 12
  | .year => 99

theorem RegField.upper_le (f : RegField) : f.upper ≤ 99 := by cases f <;> decide

theorem RegField.mem_all (f : RegField) : f ∈ RegField.all := by cases f <;> decide

theorem RawTime.bounded_iff (t : RawTime) :
    t.bounded = true ↔ ∀ f : RegField, isBcdIn 0 f.upper (readByte t f) = true := by
  simp only [RawTime.bounded, Bool.and_eq_true]
  constructor
  · rintro ⟨⟨⟨⟨⟨⟨hsec, hmin⟩, hhour⟩, hdow⟩, hdom⟩, hmon⟩, hyear⟩ (_ | _ | _ | _ | _ | _ | _)
    exacts [hsec, hmin, hhour, hdow, hdom, hmon, hyear]
  · exact fun h => ⟨⟨⟨⟨⟨⟨h .sec, h .min⟩, h .hour⟩, h .dow⟩, h .dom⟩, h .mon⟩, h .year⟩

theorem RawTime.bounded_writeByte {t : RawTime} {f : RegField} {v : Byte} (ht : t.bounded = true)
    (hv : isBcdIn 0 f.upper v = true) : (writeByte t f v).bounded = true := by
  rw [RawTime.bounded_iff] at ht ⊢
  intro g
  by_cases hg : g = f
  · rw [hg, readByte_writeByte_same]; exact hv
  · rw [readByte_writeByte_other t v hg]; exact ht g

theorem isBcdIn_of_zero_le {lo hi : Nat} {b : Byte} (h : isBcdIn lo hi b = true) : isBcdIn 0 hi b = true := by
  simp only [isBcdIn, Bool.and_eq_true, decide_eq_true_eq] at h ⊢
  obtain ⟨⟨hbcd, -⟩, hhi⟩ := h
  exact ⟨⟨hbcd, Nat.zero_le _⟩, hhi⟩

theorem RawTime.bounded_of_validFields {t : RawTime} (h : t.validFields = true) : t.bounded = true := by
  simp only [RawTime.validFields, Bool.and_eq_true] at h
  obtain ⟨⟨⟨⟨⟨⟨hsec, hmin⟩, hhour⟩, hdow⟩, hdom⟩, hmon⟩, hyear⟩ := h
  simp only [RawTime.bounded, Bool.and_eq_true]
  exact ⟨⟨⟨⟨⟨⟨hsec, hmin⟩, hhour⟩, isBcdIn_of_zero_le hdow⟩, isBcdIn_of_zero_le hdom⟩,
    isBcdIn_of_zero_le hmon⟩, hyear⟩

/-! ### Calendars whose fields are within the buffer's bounds -/

theorem offsetYear_le_of_yearInContract {y : Year} (h : yearInContract y.toNat = true) : offsetYear y ≤ 99 := by
  simp only [yearInContract, Bool.or_eq_true, Bool.and_eq_true, decide_eq_true_eq] at h
  rw [offsetYear_eq]
  split <;> omega

theorem isBcdIn_yearByte {y : Year} (h : offsetYear y ≤ 99) : isBcdIn 0 99 (yearByte y) = true := by
  have hv : (BitVec.ofNat 8 (offsetYear y)).toNat = offsetYear y := by
    rw [BitVec.toNat_ofNat, Nat.mod_eq_of_lt (by omega)]
  rw [yearByte]
  exact isBcdIn_binaryToBcd (by omega) (by omega) (by omega)

/-- No field exceeds the upper end of the range of the byte `CALENC` and `EP2CAL` store it in (R131, R155). -/
structure CalendarValue.WithinBounds (c : CalendarValue) : Prop where
  second : c.second.toNat ≤ 59
  minute : c.minute.toNat ≤ 59
  hour : c.hour.toNat ≤ 23
  dow : c.dow.toNat ≤ 7
  dom : c.dom.toNat ≤ 31
  month : c.month.toNat ≤ 12
  year : offsetYear c.year ≤ 99

theorem encodeCalendar_bounded {c : CalendarValue} (h : c.WithinBounds) : (encodeCalendar c).bounded = true := by
  have stored {v : Byte} {hi : Nat} (hhi : hi ≤ 99) (hv : v.toNat ≤ hi) : isBcdIn 0 hi (binaryToBcd v) = true :=
    isBcdIn_binaryToBcd (hv.trans hhi) (Nat.zero_le _) hv
  rw [RawTime.bounded_iff]
  rintro (_ | _ | _ | _ | _ | _ | _)
  case sec => exact stored (by decide) h.second
  case min => exact stored (by decide) h.minute
  case hour => exact stored (by decide) h.hour
  case dow => exact stored (by decide) h.dow
  case dom => exact stored (by decide) h.dom
  case mon => exact stored (by decide) h.month
  case year => exact isBcdIn_yearByte h.year

/-- `CALENC`'s contract (R131; log 20). -/
theorem withinBounds_of_calenc_inContract {c : CalendarValue} (h : (Instr.calenc c).inContract = true) :
    c.WithinBounds := by
  simp only [Instr.inContract, CalendarValue.validDateTime, Bool.and_eq_true, decide_eq_true_eq] at h
  obtain ⟨⟨⟨⟨⟨⟨⟨⟨⟨hyear, -⟩, hmonth⟩, -⟩, hdom⟩, hhour⟩, hminute⟩, hsecond⟩, -⟩, hdow⟩ := h
  exact ⟨hsecond, hminute, hhour, hdow, hdom.trans (daysInMonth_le _ _), hmonth,
    offsetYear_le_of_yearInContract hyear⟩

/-- Up to the last second of 2099 the offset year is at most 99: day 36525 would be the first of 2100. -/
theorem yearsOf_le_of_days_lt {days : Nat} (h : days < 36525) : yearsOf days ≤ 99 := by
  have := block_cases days
  omega

/-- `EP2CAL`'s contract (R155): the answer is a date of 2000 to 2099 with a weekday number of 0 to 6. -/
theorem withinBounds_of_ep2cal_inContract {e : EpochSeconds} (h : (Instr.ep2cal e).inContract = true) :
    (epochToCalendar e).WithinBounds := by
  simp only [Instr.inContract, Bool.and_eq_true, decide_eq_true_eq] at h
  obtain ⟨hlo, hhi⟩ := h
  obtain ⟨-, -, hyear, hmonth, hdom, hhour, hminute, hsecond, hdow⟩ := epochToCalendar_fields hlo
  obtain ⟨-, hm, -, hd, -⟩ := date_of_days ((e.toNat - 946684800) / 86400)
  have hy : yearsOf ((e.toNat - 946684800) / 86400) ≤ 99 := yearsOf_le_of_days_lt (by omega)
  refine ⟨by omega, by omega, by omega, by omega, ?_, by omega, ?_⟩
  · rw [hdom]; exact hd.trans (daysInMonth_le _ _)
  · rw [offsetYear_of_ge (by omega)]; omega

/-! ### What a command reads and writes (R23)

A command answers from the bytes of its row, or stores one byte, or stores all seven; what it stores does not
depend on the state, and is within the bounds if its operands are in contract. -/

/-- The two buffers hold the same byte in each of these fields. -/
def AgreeOn (fields : List RegField) (t u : RawTime) : Prop := ∀ f ∈ fields, readByte t f = readByte u f

/-- The command writes no byte, and its response is a function of the bytes it reads. -/
def AnswersFromReads (i : Instr) : Prop :=
  i.writes = [] ∧ ∃ answer : RawTime → Response,
    (∀ t u, AgreeOn i.reads t u → answer t = answer u) ∧ ∀ s, exec i s = .next (s.respond (answer s.rb))

/-- The command stores the same byte in the same field of every state. -/
def StoresOneByte (i : Instr) : Prop :=
  ∃ f v, i.writes = [f] ∧ (i.inContract = true → isBcdIn 0 f.upper v = true) ∧
    ∀ s, exec i s = .next (s.storeField f v)

/-- The command stores the same seven bytes in every state, with the same response. -/
def StoresAllBytes (i : Instr) : Prop :=
  ∃ t r, i.writes = RegField.all ∧ (i.inContract = true → t.bounded = true) ∧
    ∀ s, exec i s = .next (s.storeAll t r)

/-- A command that looks at no byte. -/
theorem answersFromReads_of_constant {i : Instr} {r : Response} (hw : i.writes = [])
    (he : ∀ s, exec i s = .next (s.respond r)) : AnswersFromReads i :=
  ⟨hw, fun _ => r, fun _ _ _ => rfl, he⟩

theorem answersFromReads_of_getter {i : Instr} {f : RegField} (hw : i.writes = []) (hr : i.reads = [f])
    (he : ∀ s, exec i s = getField f s) : AnswersFromReads i := by
  refine ⟨hw, fun t => Response.okData (dataOfByte (bcdToBinary (readByte t f))), fun t u h => ?_, he⟩
  have hf : readByte t f = readByte u f := h f (by rw [hr]; exact List.mem_singleton_self f)
  simp only [hf]

/-- A command that reads all seven bytes may answer anything of them. -/
theorem answersFromReads_of_readsAll {i : Instr} {answer : RawTime → Response} (hw : i.writes = [])
    (hr : i.reads = RegField.all) (he : ∀ s, exec i s = .next (s.respond (answer s.rb))) : AnswersFromReads i :=
  ⟨hw, answer, fun _ _ h => congrArg answer (rawTime_ext fun f => h f (hr ▸ f.mem_all)), he⟩

theorem storesOneByte_of_setter {i : Instr} {f : RegField} {v : Byte} (hw : i.writes = [f])
    (hc : i.inContract = true → v.toNat ≤ f.upper) (he : ∀ s, exec i s = setField f v s) : StoresOneByte i :=
  ⟨f, binaryToBcd v, hw,
    fun h => isBcdIn_binaryToBcd ((hc h).trans f.upper_le) (Nat.zero_le _) (hc h), he⟩

/-- `DAYSRC` is the byte of the field that the mode selects (R163). -/
theorem daySource_eq_readByte (mode : Mode) (t : RawTime) :
    daySource mode t = readByte t (if mode.getLsbD 4 then .dow else .dom) := by
  rw [daySource]; split <;> rfl

theorem alarm2Bytes_congr {mode : Mode} {t u : RawTime} (h : AgreeOn (Instr.reads (.alm2pk mode)) t u) :
    alarm2Bytes mode t = alarm2Bytes mode u := by
  simp only [AgreeOn, Instr.reads, List.forall_mem_cons, ← daySource_eq_readByte] at h
  obtain ⟨hmin, hhour, hday, -⟩ := h
  simp only [readByte] at hmin hhour
  simp only [alarm2Bytes, alarmMinutes, alarmHours, alarmDay, hmin, hhour, hday]

/-- Channel 1 is channel 2 with the seconds byte before it (R162). -/
theorem alarm1Bytes_eq_cons (mode : Mode) (t : RawTime) :
    alarm1Bytes mode t = alarmSeconds mode t :: alarm2Bytes mode t := rfl

theorem alarm1Bytes_congr {mode : Mode} {t u : RawTime} (h : AgreeOn (Instr.reads (.alm1pk mode)) t u) :
    alarm1Bytes mode t = alarm1Bytes mode u := by
  obtain ⟨hsec, hrest⟩ := List.forall_mem_cons.1 h
  simp only [readByte] at hsec
  rw [alarm1Bytes_eq_cons, alarm1Bytes_eq_cons, alarm2Bytes_congr hrest, alarmSeconds, alarmSeconds, hsec]

/-- Everything a command can do to the buffer, with its rows of R23. -/
theorem exec_readWrite_cases (i : Instr) : AnswersFromReads i ∨ StoresOneByte i ∨ StoresAllBytes i := by
  cases i
  case bcd2bin | bin2bcd | cal2ep => exact .inl (answersFromReads_of_constant rfl fun _ => rfl)
  case getsec | getmin | gethour | getdow | getdom | getmon | getyear =>
    exact .inl (answersFromReads_of_getter rfl rfl fun _ => rfl)
  case rbdump =>
    exact .inl (answersFromReads_of_readsAll
      (answer := fun t => Response.okBus t.pack Config.timeBase Config.timeLen) rfl rfl fun _ => rfl)
  case caldec =>
    exact .inl (answersFromReads_of_readsAll
      (answer := fun t => Response.okData (decodeCalendar t).pack) rfl rfl fun _ => rfl)
  case alm1pk mode =>
    exact .inl ⟨rfl, fun t => Response.okBus (packLanes (alarm1Bytes mode t)) Config.alarm1Base Config.alarm1Len,
      fun _ _ h => by simp only [alarm1Bytes_congr h], fun _ => rfl⟩
  case alm2pk mode =>
    exact .inl ⟨rfl, fun t => Response.okBus (packLanes (alarm2Bytes mode t)) Config.alarm2Base Config.alarm2Len,
      fun _ _ h => by simp only [alarm2Bytes_congr h], fun _ => rfl⟩
  case setsec | setmin | sethour => exact .inr (.inl (storesOneByte_of_setter rfl of_decide_eq_true fun _ => rfl))
  case setdow | setdom | setmon =>
    exact .inr (.inl (storesOneByte_of_setter rfl (fun h => of_decide_eq_true (Bool.and_eq_true_iff.1 h).2)
      fun _ => rfl))
  case setyear h =>
    exact .inr (.inl ⟨.year, yearByte h, rfl, fun hc => isBcdIn_yearByte (offsetYear_le_of_yearInContract hc),
      fun _ => rfl⟩)
  case rbload raw => exact .inr (.inr ⟨raw, _, rfl, RawTime.bounded_of_validFields, fun _ => rfl⟩)
  case calenc c =>
    exact .inr (.inr ⟨encodeCalendar c, _, rfl,
      fun hc => encodeCalendar_bounded (withinBounds_of_calenc_inContract hc), fun _ => rfl⟩)
  case ep2cal e =>
    exact .inr (.inr ⟨encodeCalendar (epochToCalendar e), _, rfl,
      fun hc => encodeCalendar_bounded (withinBounds_of_ep2cal_inContract hc), fun _ => rfl⟩)

/-! ### The contract through a step -/

/-- A command in contract keeps the bounds, and every command keeps the port. -/
theorem exec_keeps_bounded {i : Instr} {s s' : State} (hc : i.inContract = true) (hb : s.rb.bounded = true)
    (h : exec i s = .next s') : s'.rb.bounded = true ∧ s'.port = s.port := by
  obtain ⟨-, answer, -, he⟩ | ⟨f, v, -, hv, he⟩ | ⟨t, r, -, ht, he⟩ := exec_readWrite_cases i
  all_goals obtain rfl := Host.Outcome.next.inj ((he s).symm.trans h)
  · exact ⟨hb, rfl⟩
  · exact ⟨RawTime.bounded_writeByte hb (hv hc), rfl⟩
  · exact ⟨ht hc, rfl⟩

theorem inContract_of_presented {cmd : CommandWord} {i : Instr} (hd : decode cmd = .ok i)
    (h : eventInContract (.command cmd) = true) : i.inContract = true := by
  simpa only [eventInContract, hd] using h

/-- R25: the reset content is within the bounds. -/
theorem reset_bounded : State.reset.rb.bounded = true := by decide

/-- Settles O59: of the four things a step can do only a command changes bytes beside the reset event, and a
presented command is in contract. -/
theorem stepKeepsContract : Obligations.StepKeepsContract := by
  rintro s s' ⟨hb, hport⟩ hstep
  have tail {e : PortEvent} {rest : List PortEvent} (hp : s.port = e :: rest) :
      eventInContract e = true ∧ ∀ e' ∈ rest, eventInContract e' = true :=
    List.forall_mem_cons.1 (hp ▸ hport)
  obtain ⟨-, rfl⟩ | ⟨rest, hp, rfl⟩ | ⟨cmd, rest, why, hp, -, rfl⟩ | ⟨cmd, rest, i, hp, hd, he⟩ := step_cases hstep
  · exact ⟨hb, hport⟩
  · exact ⟨reset_bounded, (tail hp).2⟩
  · exact ⟨hb, (tail hp).2⟩
  · obtain ⟨hcmd, hrest⟩ := tail hp
    obtain ⟨hb', hp'⟩ := exec_keeps_bounded (s := { s with port := rest })
      (inContract_of_presented hd hcmd) hb he
    exact ⟨hb', by rw [hp']; exact hrest⟩

/-! ### Frame and dependence -/

/-- Settles O55: a stored byte stands in the command's row, so every other byte is the one that was there. -/
theorem unwrittenBytesUnchanged : Obligations.UnwrittenBytesUnchanged := by
  intro i s s' h
  obtain ⟨-, answer, -, he⟩ | ⟨g, v, hw, -, he⟩ | ⟨t, r, hw, -, he⟩ := exec_readWrite_cases i
  all_goals obtain rfl := Host.Outcome.next.inj ((he s).symm.trans h)
  · exact ⟨fun _ _ => rfl, rfl⟩
  · refine ⟨fun f hf => readByte_writeByte_other s.rb v ?_, rfl⟩
    rwa [hw, List.mem_singleton] at hf
  · exact ⟨fun f hf => absurd (hw ▸ f.mem_all) hf, rfl⟩

/-- Settles O56: a response is a function of the bytes read, and a stored byte depends on the command alone. -/
theorem onlyReadBytesMatter : Obligations.OnlyReadBytesMatter := by
  intro i s t hagree
  obtain ⟨hw, answer, hcongr, he⟩ | ⟨g, v, hw, -, he⟩ | ⟨u, r, -, -, he⟩ := exec_readWrite_cases i
  · exact ⟨_, _, he s, he t, congrArg some (hcongr _ _ hagree), by simp [hw]⟩
  · refine ⟨_, _, he s, he t, rfl, fun f hf => ?_⟩
    obtain rfl : f = g := by rwa [hw, List.mem_singleton] at hf
    rw [State.storeField_rb, State.storeField_rb, readByte_writeByte_same, readByte_writeByte_same]
  · exact ⟨_, _, he s, he t, rfl, fun _ _ => rfl⟩

/-! ### Reset and reach -/

/-- Settles O1: byte by byte, and by running `CALDEC` on the zeros. -/
theorem resetBufferIsZero : Obligations.ResetBufferIsZero :=
  ⟨fun f => by cases f <;> rfl, rfl⟩

/-- Settles O58: the zeros are within the bounds, nothing is presented and there is no response. -/
theorem resetMeetsInvariants : Obligations.ResetMeetsInvariants :=
  ⟨⟨reset_bounded, fun _ he => absurd he List.not_mem_nil⟩, fun _ hr => absurd hr (Option.some_ne_none _).symm⟩

theorem decode_encode_rbload (raw : RawTime) : decode (encode (.rbload raw)) = .ok (.rbload raw) := by
  have harm : decode (encode (.rbload raw)) =
      decodeAs .r (.rbload (rawTimeOf (payloadOf (encode (.rbload raw))))) (encode (.rbload raw)) := by
    rw [decode, opcodeOf_encode]; rfl
  rw [harm, decodeAs_of_lt _ (by rw [payloadOf_encode]; exact raw.pack_lt), payloadOf_encode, Instr.payload,
    rawTimeOf_pack]

/-- Settles O29: the word is that of `RBLOAD` of the seven bytes (R124). -/
theorem everyContentReachable : Obligations.EveryContentReachable := by
  intro t s
  have hport : (s.withFetchWord 72 (encode (.rbload t)).toNat).port = .command (encode (.rbload t)) :: s.port := by
    rw [State.withFetchWord_port, commandWord_toNat]
  exact ⟨_, _, step_of_legal hport (decode_encode_rbload t), rfl⟩

end Sys2Proof
end

section
/-! PROOFS. The memory of the machine (`20_memory.md`): the buffer a command leaves depends on the buffer it finds
alone, so presented commands run in their order (R50) and one presented a second time changes nothing (R47). -/

namespace Sys2Proof

/-! ### The word that encodes a command decodes to it (R65) -/

/-- A narrow operand is read back whole from the low bits of a payload. -/
theorem setWidth_setWidth_self {n : Nat} (v : BitVec n) (h : n ≤ 64) : (v.setWidth 64).setWidth n = v := by
  rw [BitVec.setWidth_setWidth_of_le v h, BitVec.setWidth_eq]

@[simp] theorem byteLane_zero_setWidth (v : Byte) : byteLane (v.setWidth 64) 0 = v := by
  rw [byteLane_zero, setWidth_setWidth_self v (by decide)]

theorem extractLsb'_zero_setWidth {n : Nat} (v : BitVec n) (h : n ≤ 64) : (v.setWidth 64).extractLsb' 0 n = v := by
  rw [extractLsb'_zero, setWidth_setWidth_self v h]

/-- An encoded command sets no reserved bit of its format (R61). -/
theorem Instr.payload_fits (i : Instr) : i.payload.toNat < 2 ^ i.mnemonic.format.operandBits := by
  cases i
  case getsec | getmin | gethour | getdow | getdom | getmon | getyear | rbdump | caldec => decide
  case rbload raw => exact raw.pack_lt
  case calenc c | cal2ep c => exact c.pack.isLt
  all_goals exact Laws.EncodingSpellsRow.setWidth_fits _

/-- The decoder's arm for a command's own word reads back the command's own operands. -/
theorem decode_encode_arm (i : Instr) : decode (encode i) = decodeAs i.mnemonic.format i (encode i) := by
  simp only [decode, opcodeOf_encode, payloadOf_encode]
  cases i
  case getsec | getmin | gethour | getdow | getdom | getmon | getyear | rbdump | caldec => rfl
  case rbload raw => rw [Instr.payload, rawTimeOf_pack]; rfl
  case calenc c | cal2ep c => rw [Instr.payload, calendarOf_pack]; rfl
  case setyear | ep2cal | alm1pk | alm2pk => rw [Instr.payload, extractLsb'_zero_setWidth _ (by decide)]; rfl
  all_goals rw [Instr.payload, byteLane_zero_setWidth]; rfl

@[simp] theorem decode_encode (i : Instr) : decode (encode i) = .ok i := by
  rw [decode_encode_arm, decodeAs_of_lt i (by rw [payloadOf_encode]; exact i.payload_fits)]

end Sys2Proof

namespace Sys2Proof.Machine

/-! ### One command, and a run of commands, on the buffer -/

/-- The buffer a command leaves is a function of its word and of the buffer it finds (R10). -/
theorem rb_eq_bufferAfter {i : Instr} {s s' : State} (h : exec i s = .next s') : s'.rb = bufferAfter s.rb i := by
  obtain ⟨-, answer, -, he⟩ | ⟨f, v, -, -, he⟩ | ⟨t, r, -, -, he⟩ := exec_readWrite_cases i
  all_goals
    obtain rfl := Host.Outcome.next.inj ((he s).symm.trans h)
    rw [bufferAfter, he]; rfl

/-- The step that runs a presented command takes its word from the port and leaves the command's buffer. -/
theorem step_of_presented {s : State} {i : Instr} {rest : List PortEvent}
    (hp : s.port = .command (encode i) :: rest) :
    ∃ s', step s = .next s' ∧ s'.port = rest ∧ s'.rb = bufferAfter s.rb i := by
  obtain ⟨s', -, he, -, -, hport⟩ := exec_completes i { s with port := rest }
  exact ⟨s', (step_of_legal hp (decode_encode i)).trans he, hport,
    rb_eq_bufferAfter (s := { s with port := rest }) he⟩

/-- A run whose first step answers a next state goes on from that state. -/
theorem run_succ_of_step {n : Nat} {s s' : State} (h : step s = .next s') :
    Host.Core.run core (n + 1) s = Host.Core.run core n s' := by
  have hc : core.step s = .next s' := h
  simp only [Host.Core.run, hc]

/-- Settles O8, by induction on the commands: the first step runs the first one, and the others run from the state
it leaves. -/
theorem runExecutesCommandsInOrder : Obligations.RunExecutesCommandsInOrder := by
  intro cmds rest
  induction cmds with
  | nil => exact fun s hp => ⟨s, rfl, hp, rfl⟩
  | cons i cmds ih =>
    intro s hp
    obtain ⟨s₁, hstep, hport, hrb⟩ := step_of_presented hp
    obtain ⟨s', hrun, hport', hrb'⟩ := ih s₁ hport
    exact ⟨s', (run_succ_of_step hstep).trans hrun, hport', by rw [hrb', hrb, List.foldl_cons]⟩

/-! ### A command presented twice -/

@[simp] theorem writeByte_writeByte_same (t : RawTime) (f : RegField) (v w : Byte) :
    writeByte (writeByte t f v) f w = writeByte t f w := by
  cases f <;> rfl

@[simp] theorem State.storeField_storeField_same (s : State) (f : RegField) (v w : Byte) :
    (s.storeField f v).storeField f w = s.storeField f w := by
  simp only [State.storeField, writeByte_writeByte_same]

@[simp] theorem State.storeAll_storeAll (s : State) (t u : RawTime) (r q : Response) :
    (s.storeAll t r).storeAll u q = s.storeAll u q := rfl

/-- Settles O57: a command that answers leaves the bytes its answer is made of, and one that stores the same bytes
in every state overwrites them with themselves. -/
theorem commandsAreIdempotent : Obligations.CommandsAreIdempotent := by
  intro i s s₁ h
  obtain ⟨-, answer, -, he⟩ | ⟨f, v, -, -, he⟩ | ⟨t, r, -, -, he⟩ := exec_readWrite_cases i
  all_goals
    obtain rfl := Host.Outcome.next.inj ((he s).symm.trans h)
    rw [he]
  · rw [State.respond_rb, State.respond_respond]
  · rw [State.storeField_storeField_same]
  · rw [State.storeAll_storeAll]

end Sys2Proof.Machine
end

section
/-! PROOFS. Command words (`30_encoding.md`): every command has one word and every legal word one command (R60 to
R65), why a word is illegal (R68), the assembler on numbers (R70, R71) and the form of a response (R66, R67). -/

namespace Sys2Proof

/-! ### A word that decodes

`decode_eq_ok_cases` gives the opcode and the bound on the payload; what is left is that the operands the decoder
reads make up the whole payload, format by format. -/

theorem payload_eq_zero_of_fits {p : Payload} (h : p.toNat < 2 ^ PayloadFormat.n.operandBits) : 0 = p :=
  BitVec.eq_of_toNat_eq (Nat.lt_one_iff.1 h).symm

theorem setWidth_byteLane_zero_of_lt {p : Payload} (h : p.toNat < 2 ^ 8) : (byteLane p 0).setWidth 64 = p := by
  rw [byteLane_zero, setWidth_setWidth_of_lt h]

theorem setWidth_extractLsb'_zero_of_lt {p : Payload} {n : Nat} (h : p.toNat < 2 ^ n) :
    (p.extractLsb' 0 n).setWidth 64 = p := by
  rw [extractLsb'_zero, setWidth_setWidth_of_lt h]

/-- The operands of a decoded command are the whole payload of its word: no bit is dropped (R61, R62). -/
theorem payload_of_decode {cmd : CommandWord} {i : Instr} (h : decode cmd = .ok i) : i.payload = payloadOf cmd := by
  obtain ⟨hop, hfits⟩ := decode_eq_ok_cases h
  rw [decode, hop] at h
  cases i
  all_goals obtain ⟨hi, -⟩ := decodeAs_eq_ok h
  case getsec | getmin | gethour | getdow | getdom | getmon | getyear | rbdump | caldec =>
    exact payload_eq_zero_of_fits hfits
  all_goals cases hi
  case rbload => exact rawTimeOf_inverse hfits
  case calenc | cal2ep => exact calendarOf_inverse _
  case setyear | ep2cal | alm1pk | alm2pk => exact setWidth_extractLsb'_zero_of_lt hfits
  all_goals exact setWidth_byteLane_zero_of_lt hfits

/-- Settles O12: the arm of the command's own opcode reads the operands back. -/
theorem decodeOfEncode : Obligations.DecodeOfEncode := decode_encode

/-- Settles O13: the word and the encoding have the same opcode and the same payload. -/
theorem encodeOfDecode : Obligations.EncodeOfDecode := by
  intro cmd i h
  obtain ⟨hop, -⟩ := decode_eq_ok_cases h
  apply commandWord_ext
  · rw [opcodeOf_encode, BitVec.eq_of_toNat_eq hop]
  · rw [payloadOf_encode, payload_of_decode h]

/-! ### The opcode map -/

/-- No two rows of R64 have the same opcode. -/
theorem opcodeTable_row_unique {r q : OpcodeRow} (hr : r ∈ opcodeTable) (hq : q ∈ opcodeTable)
    (h : r.mnemonic.opcode = q.mnemonic.opcode) : r = q := by
  have hall : ∀ r ∈ opcodeTable, ∀ q ∈ opcodeTable, r.mnemonic.opcode = q.mnemonic.opcode → r = q := by decide
  exact hall r hr q hq h

theorem Mnemonic.opcode_injective : Function.Injective Mnemonic.opcode := by
  intro m n h
  obtain ⟨r, hr, rfl⟩ := Laws.EncodingSpellsRow.row_of m
  obtain ⟨q, hq, rfl⟩ := Laws.EncodingSpellsRow.row_of n
  rw [opcodeTable_row_unique hr hq h]

/-- Settles O14: a row is matched by opcode and reserved bits, which is how the decoder selects and checks. -/
theorem decoderFollowsOpcodeMap : Obligations.DecoderFollowsOpcodeMap := by
  refine fun cmd => ⟨fun r hr hmatch => ?_, (decode_error_iff cmd).2, fun r hr q hq hmatch hmatch' => ?_⟩
  · obtain ⟨hop, hfits⟩ := (matches_row_iff hr cmd).1 hmatch
    obtain ⟨i, hi, hd⟩ := decode_of_opcode hop
    have hok : decode cmd = .ok i := hd.trans (decodeAs_of_lt i hfits)
    exact ⟨i, hok, hi, payload_of_decode hok⟩
  · obtain ⟨hop, -⟩ := (matches_row_iff hr cmd).1 hmatch
    obtain ⟨hop', -⟩ := (matches_row_iff hq cmd).1 hmatch'
    exact opcodeTable_row_unique hr hq (hop.symm.trans hop')

/-! ### Why a word is illegal (R68) -/

/-- The widths of a format's operands add up to the payload bits it uses (R61). -/
theorem PayloadFormat.sum_operandWidths (f : PayloadFormat) : f.operandWidths.sum = f.operandBits := by
  cases f <;> rfl

theorem decodeAs_eq_reservedBitSet_iff {f : PayloadFormat} {i : Instr} {cmd : CommandWord} :
    decodeAs f i cmd = .error (.reservedBitSet (opcodeOf cmd)) ↔ 2 ^ f.operandBits ≤ (payloadOf cmd).toNat := by
  refine ⟨fun h => ?_, decodeAs_of_le i⟩
  by_contra hlt
  rw [decodeAs_of_lt i (Nat.lt_of_not_le hlt)] at h
  cases h

theorem decodeAs_ne_unassignedOpcode {f : PayloadFormat} {i : Instr} {cmd : CommandWord} {op : Opcode} :
    decodeAs f i cmd ≠ .error (.unassignedOpcode op) := by
  rw [decodeAs]
  split <;> simp

/-- An opcode that is no command's reaches the decoder's last arm. -/
theorem decode_of_unassigned {cmd : CommandWord} (h : ∀ m : Mnemonic, m.opcode ≠ opcodeOf cmd) :
    decode cmd = .error (.unassignedOpcode (opcodeOf cmd)) := by
  have noArm {f : PayloadFormat} (i : Instr) (hop : (opcodeOf cmd).toNat = i.mnemonic.opcode.toNat) :
      decodeAs f i cmd = .error (.unassignedOpcode (opcodeOf cmd)) :=
    absurd (BitVec.eq_of_toNat_eq hop.symm) (h i.mnemonic)
  simp only [decode]
  split
  case h_25 => rfl
  all_goals exact noArm _ (by assumption)

/-- Settles O15: by whether the opcode is assigned; an assigned one belongs to one command, so one format. -/
theorem illegalReasons : Obligations.IllegalReasons := by
  intro cmd
  by_cases hop : ∃ m : Mnemonic, m.opcode = opcodeOf cmd
  · obtain ⟨m, hm⟩ := hop
    obtain ⟨i, -, hd⟩ := decode_of_opcode hm.symm
    rw [hd, decodeAs_eq_reservedBitSet_iff, ← m.format.sum_operandWidths]
    refine ⟨iff_of_false decodeAs_ne_unassignedOpcode fun h => h m hm, fun h => ⟨m, hm, h⟩, ?_⟩
    rintro ⟨m', hm', h⟩
    rwa [← Mnemonic.opcode_injective (hm'.trans hm.symm)]
  · have hno : ∀ m : Mnemonic, m.opcode ≠ opcodeOf cmd := not_exists.1 hop
    rw [decode_of_unassigned hno]
    exact ⟨iff_of_true rfl hno, iff_of_false nofun fun ⟨m, hm, _⟩ => hno m hm⟩

/-- Settles O11: each word is the encoding of its command. -/
theorem writtenOutWordsDecode : Obligations.WrittenOutWordsDecode :=
  ⟨decode_encode (.bcd2bin 0x59), decode_encode .getyear, decode_encode (.setyear 2024),
    decode_encode (.rbload ⟨0x58, 0x59, 0x23, 0x04, 0x29, 0x02, 0x24⟩),
    decode_encode (.calenc ⟨2024, 2, 29, 23, 59, 58, 4⟩), decode_encode (.ep2cal 1709164800),
    decode_encode (.alm2pk 16)⟩

/-! ### The assembler on numbers (R70, R71) -/

/-- The operands of a command are the fields of its format, one for one, and each holds exactly its field's width
(R61, R63, R70). -/
theorem Instr.operands_fit (i : Instr) :
    List.Forall₂ (fun v width => v < 2 ^ width) i.operands i.mnemonic.format.operandWidths := by
  cases i
  case getsec | getmin | gethour | getdow | getdom | getmon | getyear | rbdump | caldec => exact .nil
  case rbload t =>
    exact .cons t.sec.isLt <| .cons t.min.isLt <| .cons t.hour.isLt <| .cons t.dow.isLt <| .cons t.dom.isLt <|
      .cons t.mon.isLt <| .cons t.year.isLt .nil
  case calenc c | cal2ep c =>
    exact .cons c.year.isLt <| .cons c.month.isLt <| .cons c.dom.isLt <| .cons c.hour.isLt <|
      .cons c.minute.isLt <| .cons c.second.isLt <| .cons c.dow.isLt .nil
  all_goals exact .cons (BitVec.isLt _) .nil

/-- A command of format `C` has seven operands, so its line is no six-operand form (R71). -/
theorem fullOperands_toAsm (i : Instr) : i.toAsm.fullOperands = i.operands := by
  refine if_neg ?_
  rintro ⟨hc, hsix⟩
  have hlen : i.operands.length = PayloadFormat.c.operandWidths.length := hc ▸ i.operands_fit.length_eq
  exact absurd (hsix.symm.trans hlen) (by decide)

theorem countOk_toAsm (i : Instr) : i.toAsm.countOk = true := by
  rw [AsmLine.countOk, fullOperands_toAsm, beq_iff_eq]
  exact i.operands_fit.length_eq

theorem widthsOk_toAsm (i : Instr) : i.toAsm.widthsOk = true := by
  obtain ⟨-, hfit⟩ := List.forall₂_iff_zip.1 i.operands_fit
  rw [AsmLine.widthsOk, fullOperands_toAsm, List.all_eq_true]
  exact fun p hp => decide_eq_true (hfit hp)

@[simp] theorem rawTimeOfNats_toNats (t : RawTime) : rawTimeOfNats t.toNats = t := by
  simp [rawTimeOfNats, RawTime.toNats]

@[simp] theorem calendarOfNats_toNats (c : CalendarValue) : calendarOfNats c.toNats = c := by
  simp [calendarOfNats, CalendarValue.toNats]

theorem instrOfNats_operands (i : Instr) : instrOfNats i.mnemonic i.operands = i := by
  cases i <;> simp [instrOfNats, Instr.mnemonic, Instr.operands]

/-- Settles O16: the line has its operands in number and in width, and they are read back in order. -/
theorem assembleOfLine : Obligations.AssembleOfLine := by
  intro i
  rw [assemble, countOk_toAsm, widthsOk_toAsm, fullOperands_toAsm]
  exact congrArg Except.ok (instrOfNats_operands i)

/-- The assembler looks at a line's operands only as the pseudo forms expand them (R71). -/
theorem assemble_congr {m : Mnemonic} {ops ops' : List Nat}
    (h : AsmLine.fullOperands ⟨m, ops⟩ = AsmLine.fullOperands ⟨m, ops'⟩) : assemble ⟨m, ops⟩ = assemble ⟨m, ops'⟩ := by
  rw [assemble, assemble, AsmLine.countOk, AsmLine.widthsOk, AsmLine.countOk, AsmLine.widthsOk, h]

/-- Settles O17: both lines expand to the same seven operands; the modes' values are their definition. -/
theorem pseudoFormsExpand : Obligations.PseudoFormsExpand :=
  ⟨fun _ _ _ _ _ _ => ⟨assemble_congr rfl, assemble_congr rfl⟩, rfl, rfl, rfl, rfl, rfl, rfl⟩

end Sys2Proof

namespace Sys2Proof.Machine

/-! ### A presented command -/

/-- Settles O5: the presented word decodes to its command, and taking it leaves the state as it was. -/
theorem presentedCommandRuns : Obligations.PresentedCommandRuns := by
  intro i s
  have hport : (s.withFetchWord 72 (encode i).toNat).port = .command (encode i) :: s.port := by
    rw [State.withFetchWord_port, commandWord_toNat]
  exact step_of_legal hport (decode_encode i)

/-! ### Responses (R66, R67) -/

theorem wellFormed_okData (data : Payload) : (Response.okData data).wellFormed = true := by
  simp [Response.wellFormed, Response.labelOk, Response.okData]

/-- Chip bytes of one of the three groups of R41, with no bit of `data` above them. -/
theorem wellFormed_okBus {data : Payload} {addr : Byte} {count : BitVec 4}
    (hlabel : addr = 0x00 ∧ count = 7 ∨ addr = 0x07 ∧ count = 4 ∨ addr = 0x0B ∧ count = 3)
    (hdata : data.toNat < 2 ^ (8 * count.toNat)) : (Response.okBus data addr count).wellFormed = true := by
  have hok : (Response.okBus data addr count).labelOk = true := by
    obtain ⟨rfl, rfl⟩ | ⟨rfl, rfl⟩ | ⟨rfl, rfl⟩ := hlabel <;> rfl
  rw [Response.wellFormed, hok]
  simp [Response.okBus, hdata]

/-- Every command leaves a well-formed response, whatever the state before held. -/
theorem exec_response_wellFormed {i : Instr} {s s' : State} (h : exec i s = .next s') : ResponseInvariant s' := by
  obtain ⟨data, he⟩ | ⟨data, addr, count, hlabel, hdata, he⟩ | ⟨f, v, he⟩ | ⟨t, data, he⟩ := exec_shape i s
  all_goals
    obtain rfl := Host.Outcome.next.inj (he.symm.trans h)
    rintro r ⟨⟩
  · exact wellFormed_okData data
  · exact wellFormed_okBus hlabel hdata
  · exact wellFormed_okData 0
  · exact wellFormed_okData data

/-- Settles O60: the idle step keeps the response, the reset event leaves none, and the exception and every command
leave a well-formed one. -/
theorem stepKeepsResponseWellFormed : Obligations.StepKeepsResponseWellFormed := by
  intro s s' hinv hstep
  obtain ⟨-, rfl⟩ | ⟨rest, -, rfl⟩ | ⟨cmd, rest, why, -, -, rfl⟩ | ⟨cmd, rest, i, -, -, he⟩ := step_cases hstep
  · exact hinv
  · exact fun _ hr => absurd hr (Option.some_ne_none _).symm
  · rintro r ⟨⟩
    decide
  · exact exec_response_wellFormed he

end Sys2Proof.Machine
end

section
/-! PROOFS. The BCD codec (`40_bcd_codec.md`): the two functions are inverse to each other where R104 says so, and
the two commands answer them for every byte (R100 to R103). -/

namespace Sys2Proof.Machine

/-! ### The rules' two functions, one after the other -/

/-- The units digit survives encoding whole, the tens digit modulo 16 (R101). -/
theorem bcdValue_bcdCode (n : Nat) : bcdValue (bcdCode n) = n / 10 % 16 * 10 + n % 10 := by
  rw [bcdValue, bcdCode, BitVec.toNat_ofNat]
  omega

/-- A byte whose units nibble is a decimal digit is the packed form of its value; any tens nibble fits four bits. -/
theorem bcdCode_bcdValue {b : Byte} (hlo : b.toNat % 16 ≤ 9) : bcdCode (bcdValue b) = b := by
  apply BitVec.eq_of_toNat_eq
  rw [bcdValue, bcdCode, BitVec.toNat_ofNat]
  omega

theorem bcdToBinary_binaryToBcd_toNat (v : Byte) :
    (bcdToBinary (binaryToBcd v)).toNat = v.toNat / 10 % 16 * 10 + v.toNat % 10 := by
  rw [bcdToBinary_toNat, binaryToBcd_eq_bcdCode, bcdValue_bcdCode]

theorem bcdToBinary_binaryToBcd_of_le {v : Byte} (h : v.toNat ≤ 159) : bcdToBinary (binaryToBcd v) = v := by
  apply BitVec.eq_of_toNat_eq
  rw [bcdToBinary_binaryToBcd_toNat]
  omega

/-- From 160 up the tens digit is 16 or more, and 16 tens are lost. -/
theorem bcdToBinary_binaryToBcd_of_ge {v : Byte} (h : 160 ≤ v.toNat) : bcdToBinary (binaryToBcd v) = v - 160 := by
  have hv := v.isLt
  have hsub : (v - 160).toNat = v.toNat - 160 := BitVec.toNat_sub_of_le (BitVec.le_def.2 h)
  apply BitVec.eq_of_toNat_eq
  rw [bcdToBinary_binaryToBcd_toNat, hsub]
  omega

/-- R104 (d), which also asks for a decimal tens nibble, is a case of this. -/
theorem binaryToBcd_bcdToBinary {b : Byte} (hlo : b.toNat % 16 ≤ 9) : binaryToBcd (bcdToBinary b) = b := by
  rw [binaryToBcd_eq_bcdCode, bcdToBinary_toNat, bcdCode_bcdValue hlo]

/-- Settles O20: both directions are arithmetic on the two digits. -/
theorem codecRoundTrips : Obligations.CodecRoundTrips :=
  ⟨fun _ => bcdToBinary_binaryToBcd_of_le, fun _ => bcdToBinary_binaryToBcd_of_ge,
    fun _ _ hlo => binaryToBcd_bcdToBinary hlo⟩

/-! ### The two commands -/

/-- The `data` field of a decoded byte, as the rules' number (R67, R100). -/
theorem dataOfByte_bcdToBinary (b : Byte) : dataOfByte (bcdToBinary b) = BitVec.ofNat 64 (bcdValue b) := by
  apply BitVec.eq_of_toNat_eq
  rw [dataOfByte, BitVec.toNat_setWidth, BitVec.toNat_ofNat, bcdToBinary_toNat]

/-- The `data` field of an encoded byte, as the rules' packed digits (R67, R101). -/
theorem dataOfByte_binaryToBcd (v : Byte) : dataOfByte (binaryToBcd v) = (bcdCode v.toNat).setWidth 64 := by
  rw [dataOfByte, binaryToBcd_eq_bcdCode]

theorem exec_bcd2bin (b : Byte) (s : State) :
    exec (.bcd2bin b) s = .next (s.respond (Response.okData (dataOfByte (bcdToBinary b)))) := rfl

theorem exec_bin2bcd (v : Byte) (s : State) :
    exec (.bin2bcd v) s = .next (s.respond (Response.okData (dataOfByte (binaryToBcd v)))) := rfl

/-- The words of an opcode whose one operand is the byte in the payload's lowest lane (format `B`, R61). -/
theorem wordsSpell_of_byteOperand {op : Opcode} {mk : Byte → Instr}
    (h : ∀ cmd, opcodeOf cmd = op → decode cmd = decodeAs .b (mk (byteLane (payloadOf cmd) 0)) cmd) :
    WordsSpell op 8 (fun p => mk (p.setWidth 8)) :=
  wordsSpell_of (f := .b) fun cmd hop => by rw [h cmd hop, byteLane_zero]

/-- Settles O18: the answer is the digits' value, and the decoder's arm takes the payload's lowest byte. -/
theorem bcd2binAnswersBinary : Obligations.Bcd2binAnswersBinary := by
  refine ⟨fun b s => ?_, wordsSpell_of_byteOperand fun cmd hop => by rw [decode, hop]; rfl⟩
  rw [exec_bcd2bin, dataOfByte_bcdToBinary]; rfl

/-- Settles O19: the answer is the packed digits, and the decoder's arm takes the payload's lowest byte. -/
theorem bin2bcdAnswersPackedBcd : Obligations.Bin2bcdAnswersPackedBcd := by
  refine ⟨fun v s => ?_, wordsSpell_of_byteOperand fun cmd hop => by rw [decode, hop]; rfl⟩
  rw [exec_bin2bcd, dataOfByte_binaryToBcd]; rfl

end Sys2Proof.Machine
end

section
/-! PROOFS. The Register Buffer (`41_register_buffer.md`): what each getter answers (R110 to R116), what each setter
stores (R117 to R123), the whole-buffer transfers (R124, R125), and the laws between them (R126). -/

namespace Sys2Proof.Machine

/-! ### The words of a command without operands (format `N`, R61) -/

/-- The opcode alone selects such a command (R60). -/
theorem decode_of_noOperands {i : Instr} (hf : i.mnemonic.format = .n) {cmd : CommandWord}
    (hop : opcodeOf cmd = i.mnemonic.opcode) : decode cmd = decodeAs .n i cmd := by
  cases i
  case getsec | getmin | gethour | getdow | getdom | getmon | getyear | rbdump | caldec => rw [decode, hop]; rfl
  all_goals cases hf

theorem wordsSpell_of_noOperands (i : Instr) (hf : i.mnemonic.format = .n) :
    WordsSpell i.mnemonic.opcode 0 (fun _ => i) :=
  wordsSpell_of (f := .n) fun _ => decode_of_noOperands hf

/-! ### Getters and setters, for any field -/

/-- What a getter answers, in the rules' numbers. -/
theorem getField_eq (f : RegField) (s : State) :
    getField f s = .next (s.respond (Response.okData (BitVec.ofNat 64 (bcdValue (readByte s.rb f))))) := by
  rw [getField, dataOfByte_bcdToBinary]

/-- What a byte-wide setter stores, in the rules' numbers. -/
theorem setField_eq (f : RegField) (v : Byte) (s : State) :
    setField f v s = .next (s.storeField f (bcdCode v.toNat)) := by
  rw [setField, binaryToBcd_eq_bcdCode]

/-- What `SETYEAR` stores, in the rules' numbers. -/
theorem exec_setyear (h : Year) (s : State) :
    exec (.setyear h) s = .next (s.storeField .year (bcdCode (offsetYear h % 256))) := by
  rw [← yearByte_eq_bcdCode]; rfl

/-- Settles O21: each is the one getter at its field, and its word has no operand. -/
theorem gettersAnswerBinaryUnits : Obligations.GettersAnswerBinaryUnits :=
  ⟨fun s => ⟨getField_eq .sec s, getField_eq .min s, getField_eq .hour s, getField_eq .dow s, getField_eq .dom s,
      getField_eq .mon s, getField_eq .year s⟩,
    wordsSpell_of_noOperands .getsec rfl, wordsSpell_of_noOperands .getmin rfl,
    wordsSpell_of_noOperands .gethour rfl, wordsSpell_of_noOperands .getdow rfl,
    wordsSpell_of_noOperands .getdom rfl, wordsSpell_of_noOperands .getmon rfl,
    wordsSpell_of_noOperands .getyear rfl⟩

/-- Settles O22: each is the one setter at its field, and its word holds the operand in the lowest lane. -/
theorem settersStoreOneByte : Obligations.SettersStoreOneByte := by
  refine ⟨fun v s => ⟨setField_eq .sec v s, setField_eq .min v s, setField_eq .hour v s, setField_eq .dow v s,
      setField_eq .dom v s, setField_eq .mon v s⟩,
    wordsSpell_of_byteOperand ?_, wordsSpell_of_byteOperand ?_, wordsSpell_of_byteOperand ?_,
    wordsSpell_of_byteOperand ?_, wordsSpell_of_byteOperand ?_, wordsSpell_of_byteOperand ?_⟩
  all_goals
    intro cmd hop
    rw [decode, hop]; rfl

/-- Settles O23: the stored byte is that of the offset year narrowed to 8 bits, and the word holds the year in its
low 16 bits. -/
theorem setyearNormalisesAndStores : Obligations.SetyearNormalisesAndStores := by
  refine ⟨exec_setyear, wordsSpell_of (f := .h) fun cmd hop => ?_⟩
  rw [decode, hop, extractLsb'_zero]; rfl

/-! ### Whole-buffer transfer -/

theorem exec_rbload (raw : RawTime) (s : State) :
    exec (.rbload raw) s = .next (s.storeAll raw (Response.okData 0)) := rfl

theorem exec_rbdump (s : State) :
    exec .rbdump s = .next (s.respond (Response.okBus s.rb.pack Config.timeBase Config.timeLen)) := rfl

/-- The seven packed bytes as the rules' number (R42, R67). -/
theorem rawTime_pack_eq_laneNumber (t : RawTime) :
    t.pack = BitVec.ofNat 64 (laneNumber [t.sec.toNat, t.min.toNat, t.hour.toNat, t.dow.toNat, t.dom.toNat,
      t.mon.toNat, t.year.toNat]) := by
  rw [RawTime.pack, packLanes, lanesToNat_eq_laneNumber]; rfl

/-- The chip bytes of a response labelled as the time registers are the seven lanes of its data (R41, R42). -/
theorem chipCells_okBus_time (p : Payload) :
    (Response.okBus p Config.timeBase Config.timeLen).chipCells =
      [(0x00, (rawTimeOf p).sec), (0x01, (rawTimeOf p).min), (0x02, (rawTimeOf p).hour), (0x03, (rawTimeOf p).dow),
        (0x04, (rawTimeOf p).dom), (0x05, (rawTimeOf p).mon), (0x06, (rawTimeOf p).year)] := rfl

/-- Settles O24: the operand is stored whole, and the word holds it in lanes 0 to 6. -/
theorem rbloadStoresBytesAsGiven : Obligations.RbloadStoresBytesAsGiven := by
  refine ⟨exec_rbload, wordsSpell_of (f := .r) fun cmd hop => ?_⟩
  rw [decode, hop]; rfl

/-- Settles O25: the packed buffer is the rules' lane number, and the word has no operand. -/
theorem rbdumpHandsOverBytes : Obligations.RbdumpHandsOverBytes := by
  refine ⟨fun s => ?_, wordsSpell_of_noOperands .rbdump rfl⟩
  rw [exec_rbdump, rawTime_pack_eq_laneNumber]; rfl

/-! ### Reading back what was stored (R126) -/

/-- Encoding loses sixteen tens at a time. -/
theorem bcdValue_bcdCode_eq_mod (n : Nat) : bcdValue (bcdCode n) = n % 160 := by
  rw [bcdValue_bcdCode]; omega

/-- A getter after a store of a packed number in its own field. -/
theorem getField_storeField_bcdCode (f : RegField) (n : Nat) (s : State) :
    getField f (s.storeField f (bcdCode n)) =
      .next ((s.storeField f (bcdCode n)).respond (Response.okData (BitVec.ofNat 64 (n % 160)))) := by
  rw [getField_eq, State.storeField_rb, readByte_writeByte_same, bcdValue_bcdCode_eq_mod]

theorem getField_after_setField (f : RegField) (v : Byte) (s : State) :
    ∃ s1, setField f v s = .next s1 ∧
      getField f s1 = .next (s1.respond (Response.okData
        (BitVec.ofNat 64 (if v.toNat ≤ 159 then v.toNat else v.toNat - 160)))) := by
  have hv := v.isLt
  have hback : v.toNat % 160 = if v.toNat ≤ 159 then v.toNat else v.toNat - 160 := by split <;> omega
  exact ⟨_, setField_eq f v s, hback ▸ getField_storeField_bcdCode f v.toNat s⟩

/-- Settles O26: the law holds of the one setter and the one getter at any field. -/
theorem getterAfterSetter : Obligations.GetterAfterSetter := fun v s =>
  ⟨getField_after_setField .sec v s, getField_after_setField .min v s, getField_after_setField .hour v s,
    getField_after_setField .dow v s, getField_after_setField .dom v s, getField_after_setField .mon v s⟩

/-- In both ranges the offset year is below 160, so it is neither narrowed nor loses tens. -/
theorem offsetYear_mod_of_ranges {h : Year} (hr : h.toNat ≤ 159 ∨ 2000 ≤ h.toNat ∧ h.toNat ≤ 2159) :
    offsetYear h % 256 % 160 = if h.toNat ≤ 159 then h.toNat else h.toNat - 2000 := by
  obtain hlow | ⟨hge, hle⟩ := hr
  · rw [offsetYear_of_lt (by omega), if_pos hlow]; omega
  · rw [offsetYear_of_ge hge, if_neg (by omega)]; omega

/-- Settles O27: the year getter on the packed offset year. -/
theorem getyearAfterSetyear : Obligations.GetyearAfterSetyear := fun h s hr =>
  ⟨_, exec_setyear h s, offsetYear_mod_of_ranges hr ▸ getField_storeField_bcdCode .year (offsetYear h % 256) s⟩

/-- Settles O28: the dumped data is the packed operand, and unpacking it gives the operand back. -/
theorem dumpAfterLoadReturnsBytes : Obligations.DumpAfterLoadReturnsBytes := fun raw s =>
  ⟨_, _, _, exec_rbload raw s, exec_rbdump _, rfl, by
    rw [chipCells_okBus_time, State.storeAll_rb, rawTimeOf_pack]⟩

end Sys2Proof.Machine
end

section
/-! PROOFS. The calendar codec (`42_calendar_codec.md`): what `CALDEC` answers and `CALENC` stores for every buffer
and every calendar (R130, R131), the laws between them and the getters (R132), and `CALDEC` after `EP2CAL` (R155). -/

namespace Sys2Proof.Machine

/-! ### The two commands -/

theorem exec_caldec (s : State) :
    exec .caldec s = .next (s.respond (Response.okData (decodeCalendar s.rb).pack)) := rfl

theorem exec_calenc (c : CalendarValue) (s : State) :
    exec (.calenc c) s = .next (s.storeAll (encodeCalendar c) (Response.okData 0)) := rfl

theorem exec_ep2cal (e : EpochSeconds) (s : State) :
    exec (.ep2cal e) s =
      .next (s.storeAll (encodeCalendar (epochToCalendar e)) (Response.okData (epochToCalendar e).pack)) := rfl

/-- A packed calendar as the rules' number (R62, R67). -/
theorem calendarValue_pack_eq_calendarNumber (c : CalendarValue) :
    c.pack = BitVec.ofNat 64 (calendarNumber c.year.toNat c.month.toNat c.dom.toNat c.hour.toNat c.minute.toNat
      c.second.toNat c.dow.toNat) := by
  rw [CalendarValue.pack, lanesToNat_eq_laneNumber]; rfl

/-- "2000..2165, never overflows" (R130). -/
theorem decodeCalendar_year_toNat (t : RawTime) : (decodeCalendar t).year.toNat = 2000 + bcdValue t.year := by
  have hle := bcdValue_le t.year
  rw [decodeCalendar, BitVec.toNat_ofNat, bcdToBinary_toNat, Config.yearBase, Nat.mod_eq_of_lt (by omega)]

/-- The decoded and packed buffer, in the rules' numbers (R130). -/
theorem decodeCalendar_pack (t : RawTime) :
    (decodeCalendar t).pack = BitVec.ofNat 64 (calendarNumber (2000 + bcdValue t.year) (bcdValue t.mon)
      (bcdValue t.dom) (bcdValue t.hour) (bcdValue t.min) (bcdValue t.sec) (bcdValue t.dow)) := by
  rw [calendarValue_pack_eq_calendarNumber, decodeCalendar_year_toNat]
  simp only [decodeCalendar, bcdToBinary_toNat]

/-- The bytes `CALENC` stores, in the rules' numbers (R131). -/
theorem encodeCalendar_eq_bcdCode (c : CalendarValue) :
    encodeCalendar c = ⟨bcdCode c.second.toNat, bcdCode c.minute.toNat, bcdCode c.hour.toNat, bcdCode c.dow.toNat,
      bcdCode c.dom.toNat, bcdCode c.month.toNat, bcdCode (offsetYear c.year % 256)⟩ := by
  simp only [encodeCalendar, binaryToBcd_eq_bcdCode, yearByte_eq_bcdCode]

/-- Settles O30: the answer is the packed decoded buffer, and the word has no operand. -/
theorem caldecAnswersCalendar : Obligations.CaldecAnswersCalendar := by
  refine ⟨fun s => ?_, wordsSpell_of_noOperands .caldec rfl⟩
  rw [exec_caldec, decodeCalendar_pack]; rfl

/-- Settles O31: the stored bytes are the packed digits, and format `C` reserves no bit of the payload. -/
theorem calencStoresCalendar : Obligations.CalencStoresCalendar := by
  refine ⟨fun c s => ?_, everyWordSpells_of fun cmd hop => ?_⟩
  · rw [exec_calenc, encodeCalendar_eq_bcdCode]; rfl
  · rw [decode, hop]; rfl

/-! ### Decoding what was encoded -/

/-- The year `CALDEC` answers for a stored year: "a two-digit year comes back as an absolute one" (R132 (b)). -/
def absoluteYear (y : Year) : Year := if 2000 ≤ y.toNat then y else y + 2000

theorem absoluteYear_of_ge {y : Year} (h : 2000 ≤ y.toNat) : absoluteYear y = y := if_pos h

theorem absoluteYear_of_lt {y : Year} (h : y.toNat < 2000) : absoluteYear y = y + 2000 := if_neg (by omega)

theorem absoluteYear_toNat (y : Year) : (absoluteYear y).toNat = 2000 + offsetYear y := by
  have hbase : (2000 : Year).toNat = 2000 := rfl
  obtain hlt | hge := Nat.lt_or_ge y.toNat 2000
  · rw [absoluteYear_of_lt hlt, offsetYear_of_lt hlt, BitVec.toNat_add, hbase]; omega
  · rw [absoluteYear_of_ge hge, offsetYear_of_ge hge]; omega

/-- No field, and no offset year, reaches 160, where a packed byte begins to lose tens (R104 (b)). -/
structure KeepsTens (c : CalendarValue) : Prop where
  year : offsetYear c.year ≤ 159
  month : c.month.toNat ≤ 159
  dom : c.dom.toNat ≤ 159
  hour : c.hour.toNat ≤ 159
  minute : c.minute.toNat ≤ 159
  second : c.second.toNat ≤ 159
  dow : c.dow.toNat ≤ 159

theorem decodeCalendar_encodeCalendar_year {c : CalendarValue} (h : offsetYear c.year ≤ 159) :
    (decodeCalendar (encodeCalendar c)).year = absoluteYear c.year := by
  have hstored : (encodeCalendar c).year = bcdCode (offsetYear c.year % 256) := yearByte_eq_bcdCode c.year
  apply BitVec.eq_of_toNat_eq
  rw [decodeCalendar_year_toNat, absoluteYear_toNat, hstored, bcdValue_bcdCode_eq_mod]
  omega

/-- Such a calendar is decoded again from the bytes it is stored in, its year as an absolute one. -/
theorem decodeCalendar_encodeCalendar {c : CalendarValue} (h : KeepsTens c) :
    decodeCalendar (encodeCalendar c) = { c with year := absoluteYear c.year } := by
  rw [← decodeCalendar_encodeCalendar_year h.year]
  simp only [decodeCalendar, encodeCalendar, bcdToBinary_binaryToBcd_of_le h.month,
    bcdToBinary_binaryToBcd_of_le h.dom, bcdToBinary_binaryToBcd_of_le h.hour,
    bcdToBinary_binaryToBcd_of_le h.minute, bcdToBinary_binaryToBcd_of_le h.second,
    bcdToBinary_binaryToBcd_of_le h.dow]

/-- Settles O32: every field is below 160, and the decoded year is the absolute one. -/
theorem caldecAfterCalenc : Obligations.CaldecAfterCalenc := by
  intro c s hyear hmonth hdom hhour hminute hsecond hdow
  have hkeeps : KeepsTens c := by
    refine ⟨?_, by omega, by omega, by omega, by omega, by omega, by omega⟩
    rw [offsetYear_eq]; split <;> omega
  have habs : (if c.year.toNat ≤ 99 then c.year + 2000 else c.year) = absoluteYear c.year := by
    obtain hlow | ⟨hge, -⟩ := hyear
    · rw [if_pos hlow, absoluteYear_of_lt (by omega)]
    · rw [if_neg (by omega), absoluteYear_of_ge hge]
  refine ⟨_, exec_calenc c s, ?_⟩
  rw [exec_caldec, State.storeAll_rb, decodeCalendar_encodeCalendar hkeeps, habs]; rfl

/-- A conversion from the reference up answers a date of 2000 to 2106, out of contract from 2100 on (R155). -/
theorem keepsTens_epochToCalendar {e : EpochSeconds} (h : 946684800 ≤ e.toNat) :
    KeepsTens (epochToCalendar e) := by
  obtain ⟨-, hy, hyear, hmonth, hdom, hhour, hminute, hsecond, hdow⟩ := epochToCalendar_fields h
  obtain ⟨-, hm, -, hd, -⟩ := date_of_days ((e.toNat - 946684800) / 86400)
  have hdays := hd.trans (daysInMonth_le _ _)
  have hoff : offsetYear (epochToCalendar e).year ≤ 159 := by rw [offsetYear_of_ge (by omega)]; omega
  exact ⟨hoff, by omega, by omega, by omega, by omega, by omega, by omega⟩

/-- Settles O44: the answer's year is absolute already, so decoding the stored bytes gives the answer itself. -/
theorem caldecAfterEp2cal : Obligations.CaldecAfterEp2cal := by
  intro e s h
  obtain ⟨-, -, hyear, -⟩ := epochToCalendar_fields h
  have habs : absoluteYear (epochToCalendar e).year = (epochToCalendar e).year := absoluteYear_of_ge (by omega)
  refine ⟨_, exec_ep2cal e s, ?_⟩
  rw [exec_caldec, State.storeAll_rb, decodeCalendar_encodeCalendar (keepsTens_epochToCalendar h), habs]; rfl

/-! ### Encoding what was decoded -/

theorem offsetYear_decodeCalendar (t : RawTime) : offsetYear (decodeCalendar t).year = bcdValue t.year := by
  have hyear := decodeCalendar_year_toNat t
  rw [offsetYear_of_ge (by omega), hyear, Nat.add_sub_cancel_left]

/-- Any buffer, decoded and encoded again, byte by byte. -/
theorem readByte_encodeCalendar_decodeCalendar (t : RawTime) (f : RegField) :
    readByte (encodeCalendar (decodeCalendar t)) f = bcdCode (bcdValue (readByte t f)) := by
  have hle := bcdValue_le t.year
  rw [encodeCalendar_eq_bcdCode, offsetYear_decodeCalendar, Nat.mod_eq_of_lt (by omega)]
  simp only [decodeCalendar, bcdToBinary_toNat]
  cases f <;> rfl

theorem isBcdByte_of_isBcd {t : RawTime} (h : t.isBcd = true) (f : RegField) : isBcdByte (readByte t f) = true := by
  simp only [RawTime.isBcd, Bool.and_eq_true] at h
  obtain ⟨⟨⟨⟨⟨⟨hsec, hmin⟩, hhour⟩, hdow⟩, hdom⟩, hmon⟩, hyear⟩ := h
  cases f
  exacts [hsec, hmin, hhour, hdow, hdom, hmon, hyear]

theorem units_le_of_isBcdByte {b : Byte} (h : isBcdByte b = true) : b.toNat % 16 ≤ 9 := by
  simp only [isBcdByte, Bool.and_eq_true, decide_eq_true_eq] at h
  exact h.2

/-- A packed-BCD buffer is encoded again from the calendar it decodes to. -/
theorem encodeCalendar_decodeCalendar {t : RawTime} (h : t.isBcd = true) :
    encodeCalendar (decodeCalendar t) = t :=
  rawTime_ext fun f => by
    rw [readByte_encodeCalendar_decodeCalendar, bcdCode_bcdValue (units_le_of_isBcdByte (isBcdByte_of_isBcd h f))]

/-- Settles O33: the decoded calendar is encoded into the same seven bytes. -/
theorem calencAfterCaldec : Obligations.CalencAfterCaldec := fun s h =>
  ⟨decodeCalendar s.rb, _, _, exec_caldec s, rfl, exec_calenc _ _, encodeCalendar_decodeCalendar h⟩

/-! ### `CALDEC` and the getters (R132 (d)) -/

theorem decodeCalendar_year_sub (t : RawTime) :
    ((decodeCalendar t).year - 2000).setWidth 64 = dataOfByte (bcdToBinary t.year) := by
  have hyear := decodeCalendar_year_toNat t
  have hle := bcdValue_le t.year
  have hsub : ((decodeCalendar t).year - 2000).toNat = (decodeCalendar t).year.toNat - 2000 :=
    BitVec.toNat_sub_of_le (BitVec.le_def.2 (hyear ▸ Nat.le_add_right _ _))
  apply BitVec.eq_of_toNat_eq
  rw [dataOfByte, BitVec.toNat_setWidth, BitVec.toNat_setWidth, hsub, hyear, bcdToBinary_toNat,
    Nat.add_sub_cancel_left]

/-- Settles O34: each getter answers the decoded field; the year's needs the 2000 taken off. -/
theorem caldecAgreesWithGetters : Obligations.CaldecAgreesWithGetters := fun s =>
  ⟨decodeCalendar s.rb, exec_caldec s, rfl, rfl, rfl, rfl, rfl, rfl, by rw [decodeCalendar_year_sub]; rfl⟩

end Sys2Proof.Machine
end

section
/-! PROOFS. The epoch converter (`43_epoch_converter.md`): the sum `CAL2EP` answers (R141 to R145), the stages of
`EP2CAL` (R147 to R155), and why the two are inverse to each other and count Gregorian seconds (R146, R156). -/

namespace Sys2Proof.Machine

/-! ### The day accumulator (R144) -/

/-- The day accumulator in the rules' numbers. -/
theorem daysOf_eq_cumTable (c : CalendarValue) :
    daysOf c = (offsetYear c.year : Int) * 365
      + ((offsetYear c.year + 3) / 4 + (if offsetYear c.year % 4 = 0 ∧ 2 < c.month.toNat then 1 else 0) : Nat)
      + cumTable c.month.toNat + ((c.dom.toNat : Int) - 1) := by
  rw [daysOf_eq, leapDays_eq, cum_eq_cumTable c.month.isLt]

/-- In the reference year no day precedes the month exactly for January and for month 0: a month from 13 up has no
table entry, but counts as after February. -/
theorem firstYear_monthDays_eq_zero_iff (m : Nat) :
    (if 2 < m then 1 else 0) + cumTable m = 0 ↔ m = 0 ∨ m = 1 := by
  by_cases h : 2 < m
  · rw [if_pos h]; omega
  · have hm : m ≤ 2 := by omega
    interval_cases m <;> decide

/-- Settles O35: with a year behind it the sum is positive, and in the reference year the month's term decides. -/
theorem dayAccumulator : Obligations.DayAccumulator := by
  intro c
  have hsum := daysOf_eq_cumTable c
  have hfirst := firstYear_monthDays_eq_zero_iff c.month.toNat
  rw [offsetYear_eq] at hsum
  intro y leaps
  refine ⟨hsum, ?_⟩
  change daysOf c = (y : Int) * 365 + (leaps : Nat) + cumTable c.month.toNat + ((c.dom.toNat : Int) - 1) at hsum
  obtain hy | hy := Nat.eq_zero_or_pos y
  · have hleaps : leaps = if 2 < c.month.toNat then 1 else 0 := by simp [leaps, hy]
    rw [← hleaps] at hfirst
    omega
  · omega

theorem daysOf_ge (c : CalendarValue) : -1 ≤ daysOf c := by
  obtain ⟨-, -, hneg⟩ := dayAccumulator c
  by_cases h : daysOf c = -1
  · exact h.ge
  · have := hneg h
    omega

/-! ### `CAL2EP` for every operand (R145) -/

theorem exec_cal2ep (c : CalendarValue) (s : State) :
    exec (.cal2ep c) s = .next (s.respond (Response.okData ((calendarToEpoch c).setWidth 64))) := rfl

/-- The seconds of a time of day (R145, step 5). -/
def secondOfDay (c : CalendarValue) : Nat := c.hour.toNat * 3600 + c.minute.toNat * 60 + c.second.toNat

theorem epochTotal_eq (c : CalendarValue) :
    epochTotal c = daysOf c * 86400 + (secondOfDay c : Nat) + 946684800 := rfl

/-- "`total` is always positive (its least value is 946684800 − 86400)" (R145). -/
theorem epochTotal_pos (c : CalendarValue) : 0 < epochTotal c := by
  have := daysOf_ge c
  rw [epochTotal_eq]
  omega

/-- The answer as a number: the total reduced modulo 2^32. -/
theorem calendarToEpoch_toNat (c : CalendarValue) :
    (calendarToEpoch c).toNat = (epochTotal c).toNat % 2 ^ 32 := by
  rw [calendarToEpoch, BitVec.toNat_ofInt, Int.toNat_emod (epochTotal_pos c).le (by decide)]
  rfl

/-- A total that fits 32 bits is the answer. -/
theorem calendarToEpoch_of_total {c : CalendarValue} {n : Nat} (h : epochTotal c = n) (hn : n < 2 ^ 32) :
    (calendarToEpoch c).toNat = n := by
  rw [calendarToEpoch_toNat, h, Int.toNat_natCast, Nat.mod_eq_of_lt hn]

theorem exec_cal2ep_ofNat (c : CalendarValue) (s : State) :
    exec (.cal2ep c) s = .next (s.respond (Response.okData (BitVec.ofNat 64 (calendarToEpoch c).toNat))) := by
  rw [exec_cal2ep, BitVec.ofNat_toNat]

theorem exec_cal2ep_of_total {c : CalendarValue} {n : Nat} (h : epochTotal c = n) (hn : n < 2 ^ 32) (s : State) :
    exec (.cal2ep c) s = .next (s.respond (Response.okData (BitVec.ofNat 64 n))) := by
  rw [exec_cal2ep_ofNat, calendarToEpoch_of_total h hn]

/-- Settles O36: the total is the rules' sum, and format `C` reserves no bit of the payload. -/
theorem cal2epAnswersSeconds : Obligations.Cal2epAnswersSeconds := by
  refine ⟨fun c s => ?_, everyWordSpells_of fun cmd hop => ?_⟩
  · intro y leaps days total
    have hdays : daysOf c = days := (dayAccumulator c).1
    have htotal : epochTotal c = total := by
      simp only [epochTotal_eq, secondOfDay, hdays, total]
      push_cast
      ring
    rw [← htotal, ← calendarToEpoch_toNat]
    exact ⟨epochTotal_pos c, exec_cal2ep_ofNat c s⟩
  · rw [decode, hop]; rfl

/-- A two-digit year and the year 2000 later have the same offset (R142). -/
theorem offsetYear_add_base {y : Year} (h : y.toNat ≤ 99) : offsetYear (y + 2000) = offsetYear y := by
  have habs := absoluteYear_toNat y
  rw [absoluteYear_of_lt (by omega)] at habs
  rw [offsetYear_of_ge (by omega)]
  omega

theorem calendarToEpoch_withYear {c : CalendarValue} {y : Year} (h : offsetYear y = offsetYear c.year) :
    calendarToEpoch { c with year := y } = calendarToEpoch c := by
  simp only [calendarToEpoch, epochTotal, daysOf, h]

/-- Settles O39: the sum does not name the day of week, and takes the year's offset alone. -/
theorem cal2epIgnoresDowAndCentury : Obligations.Cal2epIgnoresDowAndCentury := fun c s =>
  ⟨fun _ => rfl, fun h => by rw [exec_cal2ep, exec_cal2ep, calendarToEpoch_withYear (offsetYear_add_base h)]⟩

/-! ### Dates

A date is an offset year, a month and a day that the month has. `dateCount` numbers the dates from 1, the reference
day; the day accumulator is one less. -/

/-- The month is a month and has that day, by the divisible-by-4 rule. -/
structure IsDate (y m d : Nat) : Prop where
  one_le_month : 1 ≤ m
  month_le : m ≤ 12
  one_le_day : 1 ≤ d
  day_le : d ≤ daysInMonth y m

/-- The days from the reference day to a date of an offset year, both counted (R144). -/
def dateCount (y m d : Nat) : Nat := y * 365 + leapDays y m + cum m + d

theorem daysOf_eq_dateCount (c : CalendarValue) :
    daysOf c = (dateCount (offsetYear c.year) c.month.toNat c.dom.toNat : Int) - 1 := by
  rw [daysOf_eq, dateCount]
  push_cast
  ring

/-- The leap rule of the thresholds, on numbers (R151, R152). -/
theorem monthThreshold_isLeapOffset (y m : Nat) :
    monthThreshold (isLeapOffset y) m = cum m + (if y % 4 = 0 ∧ 2 < m then 1 else 0) := by
  simp only [monthThreshold_eq, isLeapOffset, beq_iff_eq]; rfl

/-- The completed years' days, and the day of the year by the month walker's thresholds (R153). -/
theorem dateCount_eq_threshold (y m d : Nat) :
    dateCount y m d = y * 365 + (y + 3) / 4 + (monthThreshold (isLeapOffset y) m + d) := by
  rw [dateCount, leapDays_eq, monthThreshold_isLeapOffset]
  omega

/-- The leap rule looks at the year modulo 4. -/
theorem daysInMonth_congr {y y' : Nat} (h : y % 4 = y' % 4) (m : Nat) : daysInMonth y m = daysInMonth y' m := by
  simp only [daysInMonth, h]

theorem isLeapOffset_congr {y y' : Nat} (h : y % 4 = y' % 4) : isLeapOffset y = isLeapOffset y' := by
  simp only [isLeapOffset, h]

/-- A year divisible by 4 has 366 days, any other 365. -/
def daysInYear (y : Nat) : Nat := if y % 4 = 0 then 366 else 365

theorem monthThreshold_mono {leap : Bool} {m m' : Nat} (h : m ≤ m') (hm' : m' ≤ 12) :
    monthThreshold leap m ≤ monthThreshold leap m' := by
  have hall : ∀ leap, ∀ m' ≤ 12, ∀ m ≤ m', monthThreshold leap m ≤ monthThreshold leap m' := by decide
  exact hall leap m' hm' m h

/-- A month ends where the next one begins. -/
theorem monthThreshold_succ (y : Nat) {m : Nat} (h : 1 ≤ m) (hm : m < 12) :
    monthThreshold (isLeapOffset y) (m + 1) = monthThreshold (isLeapOffset y) m + daysInMonth y m := by
  have hall : ∀ r < 4, ∀ m < 12, 1 ≤ m →
      monthThreshold (isLeapOffset r) (m + 1) = monthThreshold (isLeapOffset r) m + daysInMonth r m := by decide
  have hr := hall (y % 4) (Nat.mod_lt y (by decide)) m hm h
  rwa [isLeapOffset_congr (Nat.mod_mod y 4), daysInMonth_congr (Nat.mod_mod y 4)] at hr

theorem monthThreshold_december (y : Nat) :
    monthThreshold (isLeapOffset y) 12 + daysInMonth y 12 = daysInYear y := by
  rw [monthThreshold_isLeapOffset, daysInYear]
  by_cases h : y % 4 = 0
  · rw [if_pos h, if_pos ⟨h, by decide⟩]; rfl
  · rw [if_neg h, if_neg fun hleap => h hleap.1]; rfl

/-- A date lies within its year. -/
theorem IsDate.dayOfYear_le {y m d : Nat} (h : IsDate y m d) :
    monthThreshold (isLeapOffset y) m + d ≤ daysInYear y := by
  obtain ⟨h1, h12, -, hd⟩ := h
  have hdec := monthThreshold_december y
  obtain rfl | hlt := Nat.eq_or_lt_of_le h12
  · omega
  · have hnext := monthThreshold_succ y h1 hlt
    have hmono : monthThreshold (isLeapOffset y) (m + 1) ≤ monthThreshold (isLeapOffset y) 12 :=
      monthThreshold_mono hlt le_rfl
    omega

/-- A later month's days come after every day of an earlier one. -/
theorem IsDate.lt_of_month_lt {y m d m' d' : Nat} (h : IsDate y m d) (h' : IsDate y m' d') (hlt : m < m') :
    monthThreshold (isLeapOffset y) m + d < monthThreshold (isLeapOffset y) m' + d' := by
  have hnext := monthThreshold_succ y h.one_le_month (Nat.lt_of_lt_of_le hlt h'.month_le)
  have hmono : monthThreshold (isLeapOffset y) (m + 1) ≤ monthThreshold (isLeapOffset y) m' :=
    monthThreshold_mono hlt h'.month_le
  have := h.day_le
  have := h'.one_le_day
  omega

/-- A later year's dates come after every date of an earlier one. -/
theorem IsDate.lt_of_year_lt {y m d y' m' d' : Nat} (h : IsDate y m d) (h' : IsDate y' m' d') (hlt : y < y') :
    dateCount y m d < dateCount y' m' d' := by
  have hend := h.dayOfYear_le
  have := h'.one_le_day
  rw [dateCount_eq_threshold, dateCount_eq_threshold]
  rw [daysInYear] at hend
  split at hend <;> omega

/-- A number counts one date only. -/
theorem IsDate.eq_of_dateCount_eq {y m d y' m' d' : Nat} (h : IsDate y m d) (h' : IsDate y' m' d')
    (hcount : dateCount y m d = dateCount y' m' d') : y = y' ∧ m = m' ∧ d = d' := by
  obtain rfl : y = y' := by
    rcases Nat.lt_trichotomy y y' with hlt | heq | hgt
    · exact absurd hcount (h.lt_of_year_lt h' hlt).ne
    · exact heq
    · exact absurd hcount (h'.lt_of_year_lt h hgt).ne'
  rw [dateCount_eq_threshold, dateCount_eq_threshold] at hcount
  obtain rfl : m = m' := by
    rcases Nat.lt_trichotomy m m' with hlt | heq | hgt
    · have := h.lt_of_month_lt h' hlt
      omega
    · exact heq
    · have := h'.lt_of_month_lt h hgt
      omega
  exact ⟨rfl, rfl, by omega⟩

/-- Up to the last day of offset year 99, which is day 36525. -/
theorem IsDate.dateCount_le {y m d : Nat} (h : IsDate y m d) (hy : y ≤ 99) : dateCount y m d ≤ 36525 := by
  have hend := h.dayOfYear_le
  rw [dateCount_eq_threshold]
  rw [daysInYear] at hend
  split at hend <;> omega

/-- What R147 to R152 make of a day count is a date. -/
theorem isDate_of_days (days : Nat) : IsDate (yearsOf days) (monthOf days) (dayOfMonth days) := by
  obtain ⟨h1, h12, hd1, hd, -⟩ := date_of_days days
  exact ⟨h1, h12, hd1, hd⟩

theorem dateCount_of_days (days : Nat) : dateCount (yearsOf days) (monthOf days) (dayOfMonth days) = days + 1 := by
  obtain ⟨-, -, -, -, hcount⟩ := date_of_days days
  exact hcount

/-! ### Calendars with a valid date and time -/

/-- The date is one of its offset year, and the time is a time of day. -/
structure IsDateTime (c : CalendarValue) : Prop where
  date : IsDate (offsetYear c.year) c.month.toNat c.dom.toNat
  hour : c.hour.toNat ≤ 23
  minute : c.minute.toNat ≤ 59
  second : c.second.toNat ≤ 59

/-- 2000 is divisible by 4, "so offset and absolute year agree" (R151). -/
theorem offsetYear_mod_four (y : Year) : offsetYear y % 4 = y.toNat % 4 := by
  rw [offsetYear_eq]
  split <;> omega

theorem isDateTime_of_validDateTime {c : CalendarValue} (h : c.validDateTime = true) :
    IsDateTime c ∧ offsetYear c.year ≤ 99 := by
  simp only [CalendarValue.validDateTime, Bool.and_eq_true, decide_eq_true_eq] at h
  obtain ⟨⟨⟨⟨⟨⟨⟨hyear, hmonth1⟩, hmonth⟩, hdom1⟩, hdom⟩, hhour⟩, hminute⟩, hsecond⟩ := h
  rw [← daysInMonth_congr (offsetYear_mod_four c.year)] at hdom
  exact ⟨⟨⟨hmonth1, hmonth, hdom1, hdom⟩, hhour, hminute, hsecond⟩, offsetYear_le_of_yearInContract hyear⟩

theorem IsDateTime.secondOfDay_lt {c : CalendarValue} (h : IsDateTime c) : secondOfDay c < 86400 := by
  obtain ⟨-, hhour, hminute, hsecond⟩ := h
  rw [secondOfDay]
  omega

/-- The seconds from 1970 to a calendar whose date is not before the reference day, as a natural number (R145). -/
def epochSeconds (c : CalendarValue) : Nat :=
  (dateCount (offsetYear c.year) c.month.toNat c.dom.toNat - 1) * 86400 + secondOfDay c + 946684800

theorem IsDateTime.one_le_dateCount {c : CalendarValue} (h : IsDateTime c) :
    1 ≤ dateCount (offsetYear c.year) c.month.toNat c.dom.toNat :=
  h.date.one_le_day.trans (Nat.le_add_left _ _)

theorem IsDateTime.epochTotal_eq {c : CalendarValue} (h : IsDateTime c) : epochTotal c = epochSeconds c := by
  have := h.one_le_dateCount
  rw [Machine.epochTotal_eq, daysOf_eq_dateCount, epochSeconds]
  push_cast [Nat.cast_sub this]
  ring

/-- "For every operand within contract, `total ≤ 4102444799`" (R145). -/
theorem IsDateTime.epochSeconds_le {c : CalendarValue} (h : IsDateTime c) (hy : offsetYear c.year ≤ 99) :
    epochSeconds c ≤ 4102444799 := by
  have := h.date.dateCount_le hy
  have := h.secondOfDay_lt
  rw [epochSeconds]
  omega

theorem le_epochSeconds (c : CalendarValue) : 946684800 ≤ epochSeconds c := Nat.le_add_left _ _

theorem IsDateTime.calendarToEpoch_toNat {c : CalendarValue} (h : IsDateTime c) (hy : offsetYear c.year ≤ 99) :
    (calendarToEpoch c).toNat = epochSeconds c :=
  calendarToEpoch_of_total h.epochTotal_eq ((h.epochSeconds_le hy).trans_lt (by decide))

theorem IsDateTime.exec_cal2ep {c : CalendarValue} (h : IsDateTime c) (hy : offsetYear c.year ≤ 99) (s : State) :
    exec (.cal2ep c) s = .next (s.respond (Response.okData (BitVec.ofNat 64 (epochSeconds c)))) := by
  rw [exec_cal2ep_ofNat, h.calendarToEpoch_toNat hy]

/-- Settles O38: the last date of offset year 99 is day 36525, and the time of day is below one day. -/
theorem cal2epInContractIsExact : Obligations.Cal2epInContractIsExact := by
  intro c s hvalid
  obtain ⟨h, hy⟩ := isDateTime_of_validDateTime hvalid
  exact ⟨epochSeconds c, h.epochTotal_eq.symm, le_epochSeconds c, h.epochSeconds_le hy, h.exec_cal2ep hy s⟩

/-- `CAL2EP` at midnight, for a day not before the reference: the days since then and the offset to 1970. -/
theorem exec_cal2ep_midnight {y : Year} {m d : Byte} {days n : Nat}
    (hcount : dateCount (offsetYear y) m.toNat d.toNat = days + 1) (hn : days * 86400 + 946684800 = n)
    (hfits : n < 2 ^ 32) (dow : Byte) (s : State) :
    exec (.cal2ep ⟨y, m, d, 0, 0, 0, dow⟩) s = .next (s.respond (Response.okData (BitVec.ofNat 64 n))) := by
  refine exec_cal2ep_of_total ?_ hfits s
  have htime : secondOfDay ⟨y, m, d, 0, 0, 0, dow⟩ = 0 := by simp [secondOfDay]
  rw [epochTotal_eq, daysOf_eq_dateCount, htime, hcount]
  omega

/-- Settles O37: the three midnights are 0, 8825 and 8826 days after the reference. -/
theorem cal2epSourceValues : Obligations.Cal2epSourceValues := fun dow s =>
  ⟨exec_cal2ep_midnight (days := 0) (n := 946684800) (by decide) (by decide) (by decide) dow s,
    exec_cal2ep_midnight (days := 8825) (n := 1709164800) (by decide) (by decide) (by decide) dow s,
    exec_cal2ep_midnight (days := 8826) (n := 1709164800 + 86400) (by decide) (by decide) (by decide) dow s⟩

/-! ### `EP2CAL` for every operand (R147 to R155) -/

/-- The days since the reference day (R147). -/
def daysSince (e : EpochSeconds) : Nat := (e.toNat - 946684800) / 86400

theorem isDateTime_epochToCalendar {e : EpochSeconds} (h : 946684800 ≤ e.toNat) :
    IsDateTime (epochToCalendar e) ∧ offsetYear (epochToCalendar e).year = yearsOf (daysSince e) := by
  obtain ⟨-, -, hyear, hmonth, hdom, hhour, hminute, hsecond, -⟩ := epochToCalendar_fields h
  have hoff : offsetYear (epochToCalendar e).year = yearsOf (daysSince e) := by
    rw [offsetYear_of_ge (by omega), hyear, Nat.add_sub_cancel_left, daysSince]
  refine ⟨⟨?_, by omega, by omega, by omega⟩, hoff⟩
  rw [hoff, hmonth, hdom]
  exact isDate_of_days _

/-- The key to both inversions: the answer's date and time sum to the operand again. -/
theorem epochSeconds_epochToCalendar {e : EpochSeconds} (h : 946684800 ≤ e.toNat) :
    epochSeconds (epochToCalendar e) = e.toNat := by
  obtain ⟨-, -, -, hmonth, hdom, hhour, hminute, hsecond, -⟩ := epochToCalendar_fields h
  obtain ⟨-, hoff⟩ := isDateTime_epochToCalendar h
  rw [epochSeconds, secondOfDay, hoff, hmonth, hdom, hhour, hminute, hsecond, ← daysSince, dateCount_of_days,
    daysSince]
  omega

/-- From the reference up `EP2CAL` stores and answers the fields of the stages, none narrowed (R155). -/
theorem exec_ep2cal_of_ge {e : EpochSeconds} (h : 946684800 ≤ e.toNat) (s : State) :
    let t := e.toNat - 946684800
    let days := t / 86400
    exec (.ep2cal e) s = .next (s.storeAll
      ⟨bcdCode (t % 60), bcdCode (t / 60 % 60), bcdCode (t / 3600 % 24), bcdCode ((days + 4) % 7),
        bcdCode (dayOfMonth days), bcdCode (monthOf days), bcdCode (yearsOf days)⟩
      (Response.okData (BitVec.ofNat 64 (calendarNumber (2000 + yearsOf days) (monthOf days) (dayOfMonth days)
        (t / 3600 % 24) (t / 60 % 60) (t % 60) ((days + 4) % 7))))) := by
  obtain ⟨-, hle, hyear, hmonth, hdom, hhour, hminute, hsecond, hdow⟩ := epochToCalendar_fields h
  obtain ⟨-, hoff⟩ := isDateTime_epochToCalendar h
  rw [exec_ep2cal, encodeCalendar_eq_bcdCode, calendarValue_pack_eq_calendarNumber, hoff, daysSince,
    Nat.mod_eq_of_lt (by omega), hyear, hmonth, hdom, hhour, hminute, hsecond, hdow]

theorem exec_ep2cal_of_lt {e : EpochSeconds} (h : e.toNat < 946684800) (s : State) :
    exec (.ep2cal e) s = .next (s.storeAll ⟨0, 0, 0, 0, 0, 0, 0⟩ (Response.okData 0)) := by
  rw [exec_ep2cal, epochToCalendar_of_lt h]; rfl

/-- Settles O40: each stage is the rules' own, and the month walk answers the last threshold not above the day of
the year. -/
theorem ep2calConverts : Obligations.Ep2calConverts := by
  refine ⟨fun e s => ⟨fun h => exec_ep2cal_of_lt h s, fun h => ?_⟩, wordsSpell_of (f := .w) fun cmd hop => ?_⟩
  · intro t days rem periods' years doy thr
    have hperiods : periods days = periods' := periods_eq days
    have hyears : yearsOf days = years := by rw [yearsOf, hperiods]
    have hdoy : dayOfYear days = doy := by rw [dayOfYear_eq, hperiods, hyears]
    have hthr {m : Nat} (hm : m ≤ 12) : monthThreshold (isLeapOffset (yearsOf days)) m = thr m := by
      rw [monthThreshold_isLeapOffset, cum_eq_cumTable (by omega), hyears]; rfl
    obtain ⟨h1, h12, hle, hlast⟩ :=
      monthWalk_spec (isLeapOffset (yearsOf days)) (dayOfYear days) (by decide : 1 ≤ 12)
    change 1 ≤ monthOf days at h1
    change monthOf days ≤ 12 at h12
    have hdom : dayOfMonth days = doy - thr (monthOf days) + 1 := by rw [dayOfMonth, hthr h12, hdoy]
    refine ⟨monthOf days, h1, h12, ?_, fun m hlt hm => ?_, ?_⟩
    · rw [← hthr h12, ← hdoy]; exact hle
    · rw [← hthr hm, ← hdoy]; exact hlast m hlt hm
    · rw [← hdom, ← hyears]; exact exec_ep2cal_of_ge h s
  · rw [decode, hop, extractLsb'_zero]; rfl

/-- "A later `CALDEC` of the zeroed buffer reports year 2000" (R150). -/
theorem decodeCalendar_zeros : (decodeCalendar ⟨0, 0, 0, 0, 0, 0, 0⟩).pack = 2000 := by decide

/-- Settles O41: the zeros decode to the year 2000, and a date's month is at least 1. -/
theorem fallbackBeforeReference : Obligations.FallbackBeforeReference := by
  refine fun e s => ⟨fun h => ⟨_, exec_ep2cal_of_lt h s, rfl, ?_⟩, fun h => ?_⟩
  · rw [exec_caldec, State.storeAll_rb, decodeCalendar_zeros]; rfl
  · obtain ⟨hdt, -⟩ := isDateTime_epochToCalendar h
    refine ⟨_, epochToCalendar e, exec_ep2cal e s, rfl, fun hzero => ?_⟩
    have hmonth := hdt.date.one_le_month
    rw [hzero] at hmonth
    exact absurd hmonth (by decide)

/-- Settles O42: the answer is a date of its offset year with a time of day. -/
theorem ep2calAnswersValidDate : Obligations.Ep2calAnswersValidDate := by
  intro e s h
  obtain ⟨-, hyears, hyear, -, -, -, -, -, hdow⟩ := epochToCalendar_fields h
  obtain ⟨⟨⟨hmonth1, hmonth, hdom1, hdom⟩, hhour, hminute, hsecond⟩, -⟩ := isDateTime_epochToCalendar h
  rw [daysInMonth_congr (offsetYear_mod_four _)] at hdom
  exact ⟨_, epochToCalendar e, exec_ep2cal e s, rfl, by omega, by omega, hmonth1, hmonth, hdom1, hdom, hhour,
    hminute, hsecond, by omega⟩

/-- Settles O43: both commands write through the codec's encode path. -/
theorem ep2calStoresAsCalenc : Obligations.Ep2calStoresAsCalenc := by
  intro e s
  refine ⟨_, _, epochToCalendar e, exec_ep2cal e s, rfl, exec_calenc _ s, ?_⟩
  rw [State.storeAll_rb, State.storeAll_rb]

/-! ### The weekday (R154) -/

/-- The next number names the next weekday, from 6 back to 0. -/
theorem weekdayOfNumber_succ_mod (n : Nat) :
    weekdayOfNumber ((n + 1) % 7) = (weekdayOfNumber (n % 7)).map Weekday.tomorrow := by
  have hall : ∀ r < 7, weekdayOfNumber ((r + 1) % 7) = (weekdayOfNumber r).map Weekday.tomorrow := by decide
  rw [← hall (n % 7) (Nat.mod_lt n (by decide)), Nat.mod_add_mod]

/-- Counting from Saturday, by induction on the days. -/
theorem weekdayOfNumber_days (days : Nat) :
    weekdayOfNumber ((days + 4) % 7) = some (Weekday.tomorrow^[days] .saturday) := by
  induction days with
  | zero => rfl
  | succ days ih =>
    rw [Nat.add_right_comm, weekdayOfNumber_succ_mod, ih, Function.iterate_succ_apply', Option.map_some]

/-- Settles O45: the answer's weekday number is that of its day count. -/
theorem weekdayCountsFromSaturday : Obligations.WeekdayCountsFromSaturday := by
  intro e s h
  obtain ⟨-, -, -, -, -, -, -, -, hdow⟩ := epochToCalendar_fields h
  exact ⟨_, epochToCalendar e, exec_ep2cal e s, rfl, by rw [hdow, weekdayOfNumber_days]⟩

/-! ### The two conversions are inverse to each other (R156) -/

/-- Also past 2099, where the total still fits 32 bits. -/
theorem calendarToEpoch_epochToCalendar {e : EpochSeconds} (h : 946684800 ≤ e.toNat) :
    calendarToEpoch (epochToCalendar e) = e := by
  obtain ⟨hdt, -⟩ := isDateTime_epochToCalendar h
  have htotal : epochTotal (epochToCalendar e) = e.toNat := by
    rw [hdt.epochTotal_eq, epochSeconds_epochToCalendar h]
  exact BitVec.eq_of_toNat_eq (calendarToEpoch_of_total htotal e.isLt)

/-- Settles O46: the answer's seconds are the operand. -/
theorem cal2epInvertsEp2cal : Obligations.Cal2epInvertsEp2cal := by
  intro e s h
  refine ⟨_, epochToCalendar e, exec_ep2cal e s, rfl, ?_⟩
  rw [exec_cal2ep, calendarToEpoch_epochToCalendar h]; rfl

/-- The seconds of a calendar determine its date and its time of day. -/
theorem IsDateTime.eq_of_epochSeconds_eq {c c' : CalendarValue} (h : IsDateTime c) (h' : IsDateTime c')
    (heq : epochSeconds c = epochSeconds c') :
    offsetYear c.year = offsetYear c'.year ∧ c.month.toNat = c'.month.toNat ∧ c.dom.toNat = c'.dom.toNat ∧
      c.hour.toNat = c'.hour.toNat ∧ c.minute.toNat = c'.minute.toNat ∧ c.second.toNat = c'.second.toNat := by
  have hlt := h.secondOfDay_lt
  have hlt' := h'.secondOfDay_lt
  have hone := h.one_le_dateCount
  have hone' := h'.one_le_dateCount
  rw [epochSeconds, epochSeconds] at heq
  obtain ⟨hyear, hmonth, hdom⟩ := h.date.eq_of_dateCount_eq h'.date (by omega)
  have htime : secondOfDay c = secondOfDay c' := by omega
  obtain ⟨-, hhour, hminute, hsecond⟩ := h
  obtain ⟨-, hhour', hminute', hsecond'⟩ := h'
  rw [secondOfDay, secondOfDay] at htime
  exact ⟨hyear, hmonth, hdom, by omega, by omega, by omega⟩

/-- Two calendars with the same date and time differ in the day of week alone. -/
theorem eq_withDow_of_toNat_eq {c c' : CalendarValue} (hyear : c'.year.toNat = c.year.toNat)
    (hmonth : c'.month.toNat = c.month.toNat) (hdom : c'.dom.toNat = c.dom.toNat)
    (hhour : c'.hour.toNat = c.hour.toNat) (hminute : c'.minute.toNat = c.minute.toNat)
    (hsecond : c'.second.toNat = c.second.toNat) : c' = { c with dow := c'.dow } := by
  cases c'
  simp only [CalendarValue.mk.injEq, ← BitVec.toNat_inj, and_true]
  exact ⟨hyear, hmonth, hdom, hhour, hminute, hsecond⟩

/-- In contract, and with a four-digit year, the calendar comes back but for its day of week. -/
theorem epochToCalendar_calendarToEpoch {c : CalendarValue} (h : IsDateTime c) (hy : offsetYear c.year ≤ 99)
    (hc : 2000 ≤ c.year.toNat) :
    epochToCalendar (calendarToEpoch c) = { c with dow := (epochToCalendar (calendarToEpoch c)).dow } := by
  have he := h.calendarToEpoch_toNat hy
  have hge : 946684800 ≤ (calendarToEpoch c).toNat := he ▸ le_epochSeconds c
  obtain ⟨hdt, -⟩ := isDateTime_epochToCalendar hge
  obtain ⟨-, -, hfull, -⟩ := epochToCalendar_fields hge
  obtain ⟨hyear, hmonth, hdom, hhour, hminute, hsecond⟩ :=
    hdt.eq_of_epochSeconds_eq h ((epochSeconds_epochToCalendar hge).trans he)
  rw [offsetYear_of_ge (by omega), offsetYear_of_ge hc] at hyear
  exact eq_withDow_of_toNat_eq (by omega) hmonth hdom hhour hminute hsecond

/-- Settles O47: a valid calendar is determined by its seconds. -/
theorem ep2calInvertsCal2ep : Obligations.Ep2calInvertsCal2ep := by
  intro c s hvalid hc
  obtain ⟨h, hy⟩ := isDateTime_of_validDateTime hvalid
  refine ⟨calendarToEpoch c, _, _, (epochToCalendar (calendarToEpoch c)).dow, exec_cal2ep c s, rfl,
    exec_ep2cal _ _, ?_⟩
  rw [← epochToCalendar_calendarToEpoch h hy hc]; rfl

/-! ### The calendar of reference (R146 (c), R156 (e)) -/

/-- From 2000 to 2099 the century exception removes no leap day: 2000 is divisible by 400. -/
theorem gregorianLeap_eq {y : Nat} (hlo : 2000 ≤ y) (hhi : y ≤ 2099) : gregorianLeap y = isLeapOffset y := by
  have hcentury : y % 4 = 0 → (y % 100 ≠ 0 ∨ y % 400 = 0) := by omega
  rw [gregorianLeap, isLeapOffset, Bool.eq_iff_iff]
  simpa using hcentury

theorem gregorianMonthDays_eq {y : Nat} (hlo : 2000 ≤ y) (hhi : y ≤ 2099) (m : Nat) :
    gregorianMonthDays y m = daysInMonth y m := by
  simp only [gregorianMonthDays, gregorianLeap_eq hlo hhi, isLeapOffset, beq_iff_eq]
  rfl

/-- Counted month by month, the days before a month are its threshold. -/
theorem gregorianDaysOfMonths_eq {y m : Nat} (hlo : 2000 ≤ y) (hhi : y ≤ 2099) (hm : m < 12) :
    gregorianDaysOfMonths y m = monthThreshold (isLeapOffset y) (m + 1) := by
  induction m with
  | zero => simp [gregorianDaysOfMonths, monthThreshold_isLeapOffset, cum]
  | succ m ih =>
    rw [gregorianDaysOfMonths, ih (by omega), gregorianMonthDays_eq hlo hhi,
      monthThreshold_succ y (Nat.le_add_left 1 m) hm]

/-- The days of the 30 years before 2000, seven of them leap years. -/
theorem gregorianDaysOfYears_reference : gregorianDaysOfYears 30 = 10957 := by decide

/-- Counted year by year from 2000, every fourth year adds a leap day. -/
theorem gregorianDaysOfYears_eq {k : Nat} (hk : k ≤ 99) :
    gregorianDaysOfYears (30 + k) = 10957 + k * 365 + (k + 3) / 4 := by
  induction k with
  | zero => exact gregorianDaysOfYears_reference
  | succ k ih =>
    rw [← Nat.add_assoc, gregorianDaysOfYears, ih (by omega), gregorianLeap_eq (by omega) (by omega), isLeapOffset]
    simp only [beq_iff_eq]
    split <;> omega

/-- A Gregorian date and time of 2000 to 2099 is one by the block's own leap rule. -/
theorem gregorianValid_iff (c : CalendarValue) :
    gregorianValid c.year.toNat c.month.toNat c.dom.toNat c.hour.toNat c.minute.toNat c.second.toNat = true ↔
      IsDateTime c ∧ 2000 ≤ c.year.toNat ∧ c.year.toNat ≤ 2099 := by
  simp only [gregorianValid, Bool.and_eq_true, decide_eq_true_eq]
  have hdays (hlo : 2000 ≤ c.year.toNat) (hhi : c.year.toNat ≤ 2099) :
      gregorianMonthDays c.year.toNat c.month.toNat = daysInMonth (offsetYear c.year) c.month.toNat :=
    (gregorianMonthDays_eq hlo hhi _).trans (daysInMonth_congr (offsetYear_mod_four c.year).symm _)
  constructor
  · rintro ⟨⟨⟨⟨⟨⟨⟨⟨hlo, hhi⟩, hmonth1⟩, hmonth⟩, hdom1⟩, hdom⟩, hhour⟩, hminute⟩, hsecond⟩
    exact ⟨⟨⟨hmonth1, hmonth, hdom1, hdays hlo hhi ▸ hdom⟩, hhour, hminute, hsecond⟩, hlo, hhi⟩
  · rintro ⟨⟨⟨hmonth1, hmonth, hdom1, hdom⟩, hhour, hminute, hsecond⟩, hlo, hhi⟩
    exact ⟨⟨⟨⟨⟨⟨⟨⟨hlo, hhi⟩, hmonth1⟩, hmonth⟩, hdom1⟩, hdays hlo hhi ▸ hdom⟩, hhour⟩, hminute⟩, hsecond⟩

/-- The Gregorian count of seconds is the block's. -/
theorem gregorianSeconds_eq {c : CalendarValue} (h : IsDateTime c) (hlo : 2000 ≤ c.year.toNat)
    (hhi : c.year.toNat ≤ 2099) :
    gregorianSeconds c.year.toNat c.month.toNat c.dom.toNat c.hour.toNat c.minute.toNat c.second.toNat =
      epochSeconds c := by
  have hoff := offsetYear_of_ge hlo
  have hyears : gregorianDaysOfYears (c.year.toNat - 1970) =
      10957 + offsetYear c.year * 365 + (offsetYear c.year + 3) / 4 := by
    rw [show c.year.toNat - 1970 = 30 + offsetYear c.year by omega, gregorianDaysOfYears_eq (by omega)]
  have hmonths : gregorianDaysOfMonths c.year.toNat (c.month.toNat - 1) =
      monthThreshold (isLeapOffset (offsetYear c.year)) c.month.toNat := by
    rw [gregorianDaysOfMonths_eq hlo hhi (by have := h.date.month_le; omega),
      Nat.sub_add_cancel h.date.one_le_month, isLeapOffset_congr (offsetYear_mod_four c.year)]
  have hdom := h.date.one_le_day
  rw [gregorianSeconds, hyears, hmonths, epochSeconds, secondOfDay, dateCount_eq_threshold]
  omega

/-- Settles O48: a Gregorian date of the range is in contract, and its count is the total. -/
theorem cal2epCountsGregorianSeconds : Obligations.Cal2epCountsGregorianSeconds := by
  intro c s hvalid
  obtain ⟨h, hlo, hhi⟩ := (gregorianValid_iff c).1 hvalid
  rw [gregorianSeconds_eq h hlo hhi]
  exact h.exec_cal2ep (by rw [offsetYear_of_ge hlo]; omega) s

/-- Settles O49: up to the end of 2099 the answer is a Gregorian date, and its seconds are the operand. -/
theorem ep2calAnswersGregorianDate : Obligations.Ep2calAnswersGregorianDate := by
  intro e s hlo hhi
  obtain ⟨h, -⟩ := isDateTime_epochToCalendar hlo
  obtain ⟨-, -, hyear, -⟩ := epochToCalendar_fields hlo
  have hyears : yearsOf ((e.toNat - 946684800) / 86400) ≤ 99 := yearsOf_le_of_days_lt (by omega)
  have hge : 2000 ≤ (epochToCalendar e).year.toNat := by omega
  have hle : (epochToCalendar e).year.toNat ≤ 2099 := by omega
  exact ⟨_, epochToCalendar e, exec_ep2cal e s, rfl, (gregorianValid_iff _).2 ⟨h, hge, hle⟩,
    (gregorianSeconds_eq h hge hle).trans (epochSeconds_epochToCalendar hlo)⟩

end Sys2Proof.Machine
end

section
/-! PROOFS. The alarm packer (`44_alarm_packer.md`): the bytes the two packers hand over as the rules' numbers (R163
to R165), as cells of the chip (R41) and bit by bit (R162), and the mode `EVERY_DAY` (R166). -/

namespace Sys2Proof.Machine

/-! ### A mode bit at its place in a byte -/

theorem modeBitAt_toNat (mode : Mode) (k : Nat) {pos : Nat} (hpos : pos < 8) :
    (modeBitAt mode k pos).toNat = mode.toNat / 2 ^ k % 2 * 2 ^ pos := by
  have hbit : mode.toNat / 2 ^ k % 2 ≤ 1 := Nat.le_of_lt_succ (Nat.mod_lt _ (by decide))
  have hplace : 2 ^ pos ≤ 2 ^ 7 := Nat.pow_le_pow_right (by decide) (Nat.le_of_lt_succ hpos)
  have hfits : mode.toNat / 2 ^ k % 2 * 2 ^ pos ≤ 1 * 2 ^ 7 := Nat.mul_le_mul hbit hplace
  rw [modeBitAt, BitVec.toNat_shiftLeft, BitVec.toNat_setWidth, BitVec.extractLsb'_toNat, Nat.pow_one,
    Nat.shiftRight_eq_div_pow, Nat.shiftLeft_eq, Nat.mod_eq_of_lt (by omega : _ % 2 < 2 ^ 8)]
  exact Nat.mod_eq_of_lt (by omega)

theorem getLsbD_modeBitAt (mode : Mode) (k pos : Nat) {j : Nat} (hj : j < 8) :
    (modeBitAt mode k pos).getLsbD j = (j == pos && mode.getLsbD k) := by
  obtain hlt | rfl | hgt := Nat.lt_trichotomy j pos
  · have hne : (j == pos) = false := beq_eq_false_iff_ne.2 (by omega)
    simp [modeBitAt, hlt, hne]
  · simp [modeBitAt, hj]
  · have hne : (j == pos) = false := beq_eq_false_iff_ne.2 (by omega)
    have hhigh : ¬ j - pos < 1 := by omega
    simp [modeBitAt, hne, hhigh]

/-! ### The four bytes, as the rules' numbers (R163, R164) -/

theorem alarmSeconds_toNat (mode : Mode) (t : RawTime) :
    (alarmSeconds mode t).toNat = t.sec.toNat ||| mode.toNat / 2 ^ 0 % 2 * 2 ^ 7 := by
  rw [alarmSeconds, BitVec.toNat_or, modeBitAt_toNat mode 0 (by decide)]

theorem alarmMinutes_toNat (mode : Mode) (t : RawTime) :
    (alarmMinutes mode t).toNat = t.min.toNat ||| mode.toNat / 2 ^ 1 % 2 * 2 ^ 7 := by
  rw [alarmMinutes, BitVec.toNat_or, modeBitAt_toNat mode 1 (by decide)]

theorem alarmHours_toNat (mode : Mode) (t : RawTime) :
    (alarmHours mode t).toNat = t.hour.toNat ||| mode.toNat / 2 ^ 2 % 2 * 2 ^ 7 := by
  rw [alarmHours, BitVec.toNat_or, modeBitAt_toNat mode 2 (by decide)]

/-- `DYDT` is bit 4 of the mode's number. -/
theorem daySource_toNat (mode : Mode) (t : RawTime) :
    (daySource mode t).toNat = if mode.toNat / 2 ^ 4 % 2 = 1 then t.dow.toNat else t.dom.toNat := by
  rw [daySource, apply_ite BitVec.toNat, BitVec.getLsbD, Nat.testBit_eq_decide_div_mod_eq]
  simp only [decide_eq_true_eq]

theorem alarmDay_toNat (mode : Mode) (t : RawTime) :
    (alarmDay mode t).toNat = (if mode.toNat / 2 ^ 4 % 2 = 1 then t.dow.toNat else t.dom.toNat) |||
      mode.toNat / 2 ^ 3 % 2 * 2 ^ 7 ||| mode.toNat / 2 ^ 4 % 2 * 2 ^ 6 := by
  rw [alarmDay, BitVec.toNat_or, BitVec.toNat_or, daySource_toNat, modeBitAt_toNat mode 3 (by decide),
    modeBitAt_toNat mode 4 (by decide)]

/-! ### The two commands -/

theorem exec_alm1pk (mode : Mode) (s : State) :
    exec (.alm1pk mode) s = .next (s.respond
      (Response.okBus (packLanes (alarm1Bytes mode s.rb)) Config.alarm1Base Config.alarm1Len)) := rfl

theorem exec_alm2pk (mode : Mode) (s : State) :
    exec (.alm2pk mode) s = .next (s.respond
      (Response.okBus (packLanes (alarm2Bytes mode s.rb)) Config.alarm2Base Config.alarm2Len)) := rfl

theorem packLanes_eq_laneNumber (l : List Byte) :
    packLanes l = BitVec.ofNat 64 (laneNumber (l.map BitVec.toNat)) := by
  rw [packLanes, lanesToNat_eq_laneNumber]

/-- The words of an opcode whose one operand is a mode in the payload's low five bits (format `M`, R61). -/
theorem wordsSpell_of_modeOperand {op : Opcode} {mk : Mode → Instr}
    (h : ∀ cmd, opcodeOf cmd = op → decode cmd = decodeAs .m (mk ((payloadOf cmd).extractLsb' 0 5)) cmd) :
    WordsSpell op 5 (fun p => mk (p.setWidth 5)) :=
  wordsSpell_of (f := .m) fun cmd hop => by rw [h cmd hop, extractLsb'_zero]

/-- Settles O50: the packed bytes are the rules' lane number, and the word holds the mode in its low five bits. -/
theorem alm1pkPacksFourBytes : Obligations.Alm1pkPacksFourBytes := by
  refine ⟨fun mode s => ?_, wordsSpell_of_modeOperand fun cmd hop => by rw [decode, hop]; rfl⟩
  rw [exec_alm1pk, packLanes_eq_laneNumber]
  simp only [alarm1Bytes, List.map_cons, List.map_nil, alarmSeconds_toNat, alarmMinutes_toNat, alarmHours_toNat,
    alarmDay_toNat]
  rfl

/-- Settles O51: as for channel 1, without the seconds byte. -/
theorem alm2pkPacksThreeBytes : Obligations.Alm2pkPacksThreeBytes := by
  refine ⟨fun mode s => ?_, wordsSpell_of_modeOperand fun cmd hop => by rw [decode, hop]; rfl⟩
  rw [exec_alm2pk, packLanes_eq_laneNumber]
  simp only [alarm2Bytes, List.map_cons, List.map_nil, alarmMinutes_toNat, alarmHours_toNat, alarmDay_toNat]
  rfl

/-! ### Packed bytes as cells of the chip (R41, R44) -/

/-- The lanes of a number made of bytes are those bytes. -/
theorem lanesToNat_lane {l : List Byte} {k : Nat} (hk : k < l.length) :
    lanesToNat l / 2 ^ (8 * k) % 2 ^ 8 = l[k].toNat := by
  induction l generalizing k with
  | nil => exact absurd hk (Nat.not_lt_zero k)
  | cons b l ih =>
    have hb := b.isLt
    cases k with
    | zero => simp only [lanesToNat, List.getElem_cons_zero]; omega
    | succ k =>
      have hrest : (b.toNat + 2 ^ 8 * lanesToNat l) / 2 ^ 8 = lanesToNat l := by omega
      rw [lanesToNat, Nat.mul_succ, Nat.add_comm (8 * k), Nat.pow_add, ← Nat.div_div_eq_div_mul, hrest,
        List.getElem_cons_succ]
      exact ih (Nat.lt_of_succ_lt_succ hk)

theorem byteLane_packLanes {l : List Byte} {k : Nat} (hl : l.length ≤ 8) (hk : k < l.length) :
    byteLane (packLanes l) k = l[k] := by
  apply BitVec.eq_of_toNat_eq
  rw [byteLane_toNat, packLanes_toNat hl, lanesToNat_lane hk]

/-- Packed bytes labelled with their number go to consecutive chip addresses, in their order. -/
theorem chipCells_okBus_packLanes {l : List Byte} {count : BitVec 4} (addr : Byte) (hl : l.length ≤ 8)
    (hcount : count.toNat = l.length) :
    (Response.okBus (packLanes l) addr count).chipCells = l.mapIdx fun k b => (addr.toNat + k, b) := by
  refine List.ext_getElem (by simp [Response.chipCells, Response.okBus, hcount]) fun k _ hk => ?_
  rw [List.length_mapIdx] at hk
  simp only [Response.chipCells, Response.okBus, List.getElem_map, List.getElem_range, List.getElem_mapIdx,
    byteLane_packLanes hl hk]

/-- Channel 1's bytes are for 0x07 to 0x0A (R162). -/
theorem chipCells_alarm1 (mode : Mode) (t : RawTime) :
    (Response.okBus (packLanes (alarm1Bytes mode t)) Config.alarm1Base Config.alarm1Len).chipCells =
      [(0x07, alarmSeconds mode t), (0x08, alarmMinutes mode t), (0x09, alarmHours mode t),
        (0x0A, alarmDay mode t)] :=
  chipCells_okBus_packLanes _ (by decide : 4 ≤ 8) rfl

/-- Channel 2's bytes are for 0x0B to 0x0D (R162). -/
theorem chipCells_alarm2 (mode : Mode) (t : RawTime) :
    (Response.okBus (packLanes (alarm2Bytes mode t)) Config.alarm2Base Config.alarm2Len).chipCells =
      [(0x0B, alarmMinutes mode t), (0x0C, alarmHours mode t), (0x0D, alarmDay mode t)] :=
  chipCells_okBus_packLanes _ (by decide : 3 ≤ 8) rfl

/-! ### The bytes bit by bit (R162) -/

/-- A byte with a mode bit OR'd in at bit 7. -/
theorem getLsbD_or_modeBitAt_seven (b : Byte) (mode : Mode) (k : Nat) {j : Nat} (hj : j < 8) :
    (b ||| modeBitAt mode k 7).getLsbD j = (b.getLsbD j || (j == 7 && mode.getLsbD k) || (j == 6 && false)) := by
  rw [BitVec.getLsbD_or, getLsbD_modeBitAt mode k 7 hj, Bool.and_false, Bool.or_false]

theorem getLsbD_alarmDay (mode : Mode) (t : RawTime) {j : Nat} (hj : j < 8) :
    (alarmDay mode t).getLsbD j =
      ((daySource mode t).getLsbD j || (j == 7 && mode.getLsbD 3) || (j == 6 && mode.getLsbD 4)) := by
  rw [alarmDay, BitVec.getLsbD_or, BitVec.getLsbD_or, getLsbD_modeBitAt mode 3 7 hj, getLsbD_modeBitAt mode 4 6 hj]

/-- Settles O52: both channels hand over the same minutes, hours and day bytes. -/
theorem alarmPlacementTables : Obligations.AlarmPlacementTables := fun mode s =>
  ⟨alarmSeconds mode s.rb, alarmMinutes mode s.rb, alarmHours mode s.rb, alarmDay mode s.rb, _, _, _, _,
    exec_alm1pk mode s, rfl, chipCells_alarm1 mode s.rb, exec_alm2pk mode s, rfl, chipCells_alarm2 mode s.rb,
    fun _ => getLsbD_or_modeBitAt_seven _ mode 0, fun _ => getLsbD_or_modeBitAt_seven _ mode 1,
    fun _ => getLsbD_or_modeBitAt_seven _ mode 2, fun _ => getLsbD_alarmDay mode s.rb⟩

/-! ### The mode `EVERY_DAY` (R161, R166) -/

/-- A clear mode bit places nothing. -/
theorem modeBitAt_of_clear {mode : Mode} {k : Nat} (h : mode.getLsbD k = false) (pos : Nat) :
    modeBitAt mode k pos = 0 := by
  apply BitVec.eq_of_getLsbD_eq
  intro j hj
  rw [getLsbD_modeBitAt mode k pos hj, h, Bool.and_false, BitVec.ofNat_eq_ofNat, BitVec.getLsbD_zero]

/-- Of the five selectors only `M4` is 1, so only the day byte changes, in bit 7. -/
theorem alarm1Bytes_everyDay (t : RawTime) :
    alarm1Bytes (NamedMode.value .everyDay) t = [t.sec, t.min, t.hour, t.dom ||| 128] := by
  have hM1 := modeBitAt_of_clear (by decide : (NamedMode.value .everyDay).getLsbD 0 = false) 7
  have hM2 := modeBitAt_of_clear (by decide : (NamedMode.value .everyDay).getLsbD 1 = false) 7
  have hM3 := modeBitAt_of_clear (by decide : (NamedMode.value .everyDay).getLsbD 2 = false) 7
  have hM4 : modeBitAt (NamedMode.value .everyDay) 3 7 = 128 := by decide
  have hDYDT := modeBitAt_of_clear (by decide : (NamedMode.value .everyDay).getLsbD 4 = false) 6
  have hday : daySource (NamedMode.value .everyDay) t = t.dom := if_neg (by decide)
  simp only [alarm1Bytes, alarmSeconds, alarmMinutes, alarmHours, alarmDay, hday, hM1, hM2, hM3, hM4, hDYDT,
    BitVec.ofNat_eq_ofNat, BitVec.or_zero]

/-- With bit 7 clear, setting it adds 128. -/
theorem or_128_eq_add {b : Byte} (h : b.toNat < 128) : b ||| 128 = b + 128 := by
  revert b; decide

/-- Settles O53: the buffer's bytes with bit 7 of the day byte set, which was clear. -/
theorem everyDayOnChannelOne : Obligations.EveryDayOnChannelOne := by
  intro s _ _ _ hdom
  refine ⟨_, _, exec_alm1pk _ s, rfl, ?_⟩
  rw [alarm1Bytes_everyDay, or_128_eq_add hdom]
  exact chipCells_okBus_packLanes _ (by decide : 4 ≤ 8) rfl

end Sys2Proof.Machine
end

section
/-! PROOFS. The one exception (`60_exceptions.md`): which words raise it, with which effect (R180, R187), and that
no step and so no run ever stops (R182). -/

namespace Sys2Proof

/-! ### The words that spell no command (R68) -/

/-- Of the words with a command's opcode, those with a reserved bit set spell no command. -/
theorem spellsNoCommand_iff_of_opcode {cmd : CommandWord} {m : Mnemonic} (h : opcodeOf cmd = m.opcode) :
    SpellsNoCommand cmd ↔ 2 ^ m.format.operandBits ≤ (payloadOf cmd).toNat := by
  obtain ⟨i, -, hd⟩ := decode_of_opcode h
  rw [← decode_error_iff, hd]
  constructor
  · rintro ⟨why, hwhy⟩
    by_contra hlt
    rw [decodeAs_of_lt i (Nat.lt_of_not_le hlt)] at hwhy
    cases hwhy
  · exact fun hle => ⟨_, decodeAs_of_le i hle⟩

/-- An unassigned opcode spells no command, whatever the payload. -/
theorem spellsNoCommand_of_unassigned {cmd : CommandWord} (h : ∀ m : Mnemonic, opcodeOf cmd ≠ m.opcode) :
    SpellsNoCommand cmd :=
  (decode_error_iff cmd).1 ⟨_, decode_of_unassigned fun m => (h m).symm⟩

/-- `CALENC` and `CAL2EP` are the commands of format `C`, the one format with no reserved bit (R61, R62). -/
theorem Mnemonic.operandBits_lt_iff (m : Mnemonic) : m.format.operandBits < 64 ↔ m ≠ .calenc ∧ m ≠ .cal2ep := by
  cases m <;> decide

/-- Every opcode and every payload make up a word (R60). -/
theorem exists_commandWord (op : Opcode) (p : Payload) : ∃ cmd, opcodeOf cmd = op ∧ payloadOf cmd = p :=
  ⟨op ++ p, BitVec.extractLsb'_append_eq_left, BitVec.extractLsb'_append_eq_right⟩

/-- An opcode can be mis-spelt exactly when its format leaves a payload bit reserved: then the payload of all ones
sets it. -/
theorem exists_spellsNoCommand_iff (m : Mnemonic) :
    (∃ cmd, opcodeOf cmd = m.opcode ∧ SpellsNoCommand cmd) ↔ m.format.operandBits < 64 := by
  constructor
  · rintro ⟨cmd, hop, hno⟩
    have hle := (spellsNoCommand_iff_of_opcode hop).1 hno
    exact (Nat.pow_lt_pow_iff_right (by decide)).1 (hle.trans_lt (payloadOf cmd).isLt)
  · intro hbits
    obtain ⟨cmd, hop, hpay⟩ := exists_commandWord m.opcode (BitVec.allOnes 64)
    refine ⟨cmd, hop, (spellsNoCommand_iff_of_opcode hop).2 ?_⟩
    rw [hpay, BitVec.toNat_allOnes]
    exact Nat.le_sub_one_of_lt (Nat.pow_lt_pow_right (by decide) hbits)

end Sys2Proof

namespace Sys2Proof.Machine

/-! ### The exception -/

/-- A presented word that spells no command is taken and raises `IllegalCommand`; nothing else happens. -/
theorem step_of_spellsNoCommand {s : State} {cmd : CommandWord} {rest : List PortEvent}
    (hp : s.port = .command cmd :: rest) (hno : SpellsNoCommand cmd) :
    step s = .next { s with port := rest, response := some Response.illegalCommand } := by
  obtain ⟨why, hd⟩ := (decode_error_iff cmd).2 hno
  exact step_of_illegal hp hd

/-- Settles O9: the effect is the illegal branch of the step; which words there are follows from the reserved bits
of the formats. -/
theorem illegalWordRaisesIllegalCommand : Obligations.IllegalWordRaisesIllegalCommand :=
  ⟨rfl, rfl, fun _ _ _ => step_of_spellsNoCommand,
    fun m => (exists_spellsNoCommand_iff m).trans m.operandBits_lt_iff, fun _ => spellsNoCommand_of_unassigned⟩

/-- Settles O10: the first illegal word leaves the second word presented and its response in place, so a legal one
runs and an illegal one only writes that response again. -/
theorem commandAfterIllegalRunsNormally : Obligations.CommandAfterIllegalRunsNormally :=
  fun _ _ _ _ hp hbad =>
    ⟨_, step_of_spellsNoCommand hp hbad, rfl, fun _ hd => step_of_legal rfl hd,
      fun hno => step_of_spellsNoCommand rfl hno⟩

/-! ### No run stops -/

/-- The reset event zeroes the state and keeps what stands after it in the port (R201; log 4). -/
theorem step_of_reset {s : State} {rest : List PortEvent} (hp : s.port = .reset :: rest) :
    step s = .next { State.reset with port := rest } := by
  simp only [step, State.takeEvent, hp, State.resetEvent]

/-- From every state a step answers a next state (R10, R182). -/
theorem step_completes (s : State) : ∃ s', step s = .next s' := by
  cases hp : s.port with
  | nil => exact ⟨s, step_of_empty hp⟩
  | cons e rest =>
    cases e with
    | reset => exact ⟨_, step_of_reset hp⟩
    | command cmd =>
      obtain ⟨s', -, hstep, -⟩ := commandStepIsTotal s cmd rest hp
      exact ⟨s', hstep⟩

/-- Settles O7, by induction on the number of steps: the first step answers a state, and the run goes on from it. -/
theorem runsNeverStop : Obligations.RunsNeverStop := by
  intro n
  induction n with
  | zero => exact fun s => ⟨s, rfl⟩
  | succ n ih =>
    intro s
    obtain ⟨s₁, hstep⟩ := step_completes s
    obtain ⟨s', hrun⟩ := ih s₁
    exact ⟨s', (run_succ_of_step hstep).trans hrun⟩

end Sys2Proof.Machine
end

section
/-! PROOFS. The reset event (`70_reset_and_hazards.md`): one step that zeroes the buffer (R201, R25). -/

namespace Sys2Proof.Machine

/-- Settles O2: the step taken on a reset answers the reset state with the rest of the port, and the reset state's
seven bytes are 0 (R25, decision D12). -/
theorem resetEventZeroesBuffer : Obligations.ResetEventZeroesBuffer :=
  fun _ _ hp => step_of_reset hp

end Sys2Proof.Machine
end
